-- ==== Sys2Proof/Word.lean ====
section
/-! DEFINITION. The word types of the hardware (10_state.md R20 to R35, 30_encoding.md R81). -/

namespace Sys2Proof

/-- A general register, a timer, a memory byte, the immediate nn: unsigned 8 bits (R10, R20). -/
abbrev Byte := BitVec 8

/-- I, PC, a stack slot, an opcode: unsigned 16 bits (R22, R23, R25, R80). -/
abbrev Word := BitVec 16

/-- A 4-bit field of an opcode (R81). -/
abbrev Nibble := BitVec 4

/-- The address immediate nnn: 12 bits (R81). -/
abbrev Addr12 := BitVec 12

/-- The number of a general register, 0..15 (R20): `V[x]`. -/
abbrev Reg := Fin 16

/-- The number of a key, 0..15 (R31, R170). -/
abbrev Key := Fin 16

/-- VF, the register that doubles as the flag output (R21). -/
abbrev VF : Reg := 15

end Sys2Proof
end

