-- ==== Sys2Proof/Syntax.lean ====
section
/-! DEFINITION. The instruction set as syntax: one constructor for each row of spec/opcode_table.json (30_encoding.md R84). -/

namespace Sys2Proof

/-- The 35 instructions with the operand fields their encodings carry (R81, R82, R84), ignored ones included (R87). -/
inductive Instr where
  /-- 00E0 CLS (R161) -/
  | cls
  /-- 00EE RET (R111) -/
  | ret
  /-- 0nnn SYS nnn (R112) -/
  | sys (nnn : Addr12)
  /-- 1nnn JP nnn (R113) -/
  | jp (nnn : Addr12)
  /-- 2nnn CALL nnn (R114) -/
  | call (nnn : Addr12)
  /-- 3xnn SE Vx, nn (R116) -/
  | seImm (x : Reg) (nn : Byte)
  /-- 4xnn SNE Vx, nn (R117) -/
  | sneImm (x : Reg) (nn : Byte)
  /-- 5xy0 SE Vx, Vy (R118) -/
  | seReg (x y : Reg)
  /-- 6xnn LD Vx, nn (R131) -/
  | ldImm (x : Reg) (nn : Byte)
  /-- 7xnn ADD Vx, nn (R132) -/
  | addImm (x : Reg) (nn : Byte)
  /-- 8xy0 LD Vx, Vy (R133) -/
  | ldReg (x y : Reg)
  /-- 8xy1 OR Vx, Vy (R134) -/
  | orReg (x y : Reg)
  /-- 8xy2 AND Vx, Vy (R135) -/
  | andReg (x y : Reg)
  /-- 8xy3 XOR Vx, Vy (R136) -/
  | xorReg (x y : Reg)
  /-- 8xy4 ADD Vx, Vy (R137) -/
  | addReg (x y : Reg)
  /-- 8xy5 SUB Vx, Vy (R138) -/
  | subReg (x y : Reg)
  /-- 8xy6 SHR Vx (R139); y is carried and ignored (R87) -/
  | shr (x y : Reg)
  /-- 8xy7 SUBN Vx, Vy (R140) -/
  | subnReg (x y : Reg)
  /-- 8xyE SHL Vx (R141); y is carried and ignored (R87) -/
  | shl (x y : Reg)
  /-- 9xy0 SNE Vx, Vy (R119) -/
  | sneReg (x y : Reg)
  /-- Annn LD I, nnn (R150) -/
  | ldI (nnn : Addr12)
  /-- Bnnn JP V0, nnn (R115) -/
  | jpV0 (nnn : Addr12)
  /-- Cxnn RND Vx, nn (R142) -/
  | rnd (x : Reg) (nn : Byte)
  /-- Dxyn DRW Vx, Vy, n (R162) -/
  | drw (x y : Reg) (n : Nibble)
  /-- Ex9E SKP Vx (R171) -/
  | skp (x : Reg)
  /-- ExA1 SKNP Vx (R172) -/
  | sknp (x : Reg)
  /-- Fx07 LD Vx, DT (R181) -/
  | ldVxDT (x : Reg)
  /-- Fx0A LD Vx, K (R173) -/
  | ldVxK (x : Reg)
  /-- Fx15 LD DT, Vx (R182) -/
  | ldDTVx (x : Reg)
  /-- Fx18 LD ST, Vx (R183) -/
  | ldSTVx (x : Reg)
  /-- Fx1E ADD I, Vx (R151) -/
  | addI (x : Reg)
  /-- Fx29 LD F, Vx (R152) -/
  | ldF (x : Reg)
  /-- Fx33 LD B, Vx (R153) -/
  | ldB (x : Reg)
  /-- Fx55 LD [I], Vx (R154) -/
  | ldIVx (x : Reg)
  /-- Fx65 LD Vx, [I] (R155) -/
  | ldVxI (x : Reg)
deriving DecidableEq, Repr

end Sys2Proof
end

