-- ==== Sys2Proof/Decode.lean ====
section
/-! DEFINITION. The decoder (30_encoding.md R80 to R88), total on any bytes, and the encoder written from the same table. -/

namespace Sys2Proof

/-! ## Fields of an opcode (R81, conflict C1) -/

/-- group = op[15:12] -/
def opGroup (op : Word) : Nibble := op.extractLsb' 12 4

/-- x = op[11:8], a register number -/
def opX (op : Word) : Reg := (op.extractLsb' 8 4).toFin

/-- y = op[7:4], a register number -/
def opY (op : Word) : Reg := (op.extractLsb' 4 4).toFin

/-- n = op[3:0] -/
def opN (op : Word) : Nibble := op.extractLsb' 0 4

/-- nn = op[7:0] -/
def opNN (op : Word) : Byte := op.extractLsb' 0 8

/-- nnn = op[11:0] -/
def opNNN (op : Word) : Addr12 := op.extractLsb' 0 12

/-! ## The decoder (R84, R86) -/

/-- Group 0 is decided on all 16 bits: 00E0, 00EE, else 0nnn (R84 rows 1 to 3, R86(b)). -/
def decodeGroup0 (op : Word) : Instr :=
  if op = 0x00E0#16 then .cls else if op = 0x00EE#16 then .ret else .sys (opNNN op)

/-- Groups 5 and 9 require op[3:0] = 0 (R86(a)). -/
def requireN0 (op : Word) (i : Instr) : Option Instr :=
  if opN op = 0#4 then some i else none

/-- Group 8 is decided by op[3:0] (R84 rows 11 to 19). -/
def decodeGroup8 (op : Word) : Option Instr :=
  match (opN op).toNat with
  | 0x0 => some (.ldReg (opX op) (opY op))
  | 0x1 => some (.orReg (opX op) (opY op))
  | 0x2 => some (.andReg (opX op) (opY op))
  | 0x3 => some (.xorReg (opX op) (opY op))
  | 0x4 => some (.addReg (opX op) (opY op))
  | 0x5 => some (.subReg (opX op) (opY op))
  | 0x6 => some (.shr (opX op) (opY op))
  | 0x7 => some (.subnReg (opX op) (opY op))
  | 0xE => some (.shl (opX op) (opY op))
  | _ => none

/-- Group E is decided by op[7:0] (R84 rows 25 and 26). -/
def decodeGroupE (op : Word) : Option Instr :=
  match (opNN op).toNat with
  | 0x9E => some (.skp (opX op))
  | 0xA1 => some (.sknp (opX op))
  | _ => none

/-- Group F is decided by op[7:0] (R84 rows 27 to 35). -/
def decodeGroupF (op : Word) : Option Instr :=
  match (opNN op).toNat with
  | 0x07 => some (.ldVxDT (opX op))
  | 0x0A => some (.ldVxK (opX op))
  | 0x15 => some (.ldDTVx (opX op))
  | 0x18 => some (.ldSTVx (opX op))
  | 0x1E => some (.addI (opX op))
  | 0x29 => some (.ldF (opX op))
  | 0x33 => some (.ldB (opX op))
  | 0x55 => some (.ldIVx (opX op))
  | 0x65 => some (.ldVxI (opX op))
  | _ => none

/-- The instruction an opcode selects, if any (R84): by the high nibble, then as the group asks (R86). -/
def selectInstr (op : Word) : Option Instr :=
  match (opGroup op).toNat with
  | 0x0 => some (decodeGroup0 op)
  | 0x1 => some (.jp (opNNN op))
  | 0x2 => some (.call (opNNN op))
  | 0x3 => some (.seImm (opX op) (opNN op))
  | 0x4 => some (.sneImm (opX op) (opNN op))
  | 0x5 => requireN0 op (.seReg (opX op) (opY op))
  | 0x6 => some (.ldImm (opX op) (opNN op))
  | 0x7 => some (.addImm (opX op) (opNN op))
  | 0x8 => decodeGroup8 op
  | 0x9 => requireN0 op (.sneReg (opX op) (opY op))
  | 0xA => some (.ldI (opNNN op))
  | 0xB => some (.jpV0 (opNNN op))
  | 0xC => some (.rnd (opX op) (opNN op))
  | 0xD => some (.drw (opX op) (opY op) (opN op))
  | 0xE => decodeGroupE op
  | _ => decodeGroupF op

/-- Why bytes are no instruction. -/
inductive DecodeReject where
  /-- the opcode matches none of the 35 rows (R85) -/
  | unrecognized (op : Word)
  /-- fewer than two bytes are given; a fetch never does this (R80, R102) -/
  | truncated
deriving DecidableEq, Repr

/-- Decode: a pure function of the 16-bit opcode (R103). -/
def decode (op : Word) : Except DecodeReject Instr :=
  match selectInstr op with
  | some i => .ok i
  | none => .error (.unrecognized op)

/-- An opcode of two consecutive memory bytes, the lower address in the upper half (R53, R80). -/
def wordOfBytes (hi lo : Byte) : Word := hi ++ lo

/-- op[15:8], the byte at the lower address (R53). -/
def highByte (op : Word) : Byte := op.extractLsb' 8 8

/-- op[7:0], the byte at the higher address (R53). -/
def lowByte (op : Word) : Byte := op.extractLsb' 0 8

/-- Decode the first instruction of any bytes, with the bytes that are left: every instruction is two bytes (R80). -/
def decodeBytes : List Byte → Except DecodeReject (Instr × List Byte)
  | hi :: lo :: rest =>
    match decode (wordOfBytes hi lo) with
    | .ok i => .ok (i, rest)
    | .error r => .error r
  | [_] => .error .truncated
  | [] => .error .truncated

/-! ## The encoder: the six forms of R82 with the fields at R81's places -/

/-- ADDR: g nnn -/
def encAddr (g : Nibble) (nnn : Addr12) : Word := g ++ nnn

/-- REGIMM and REG: g x nn, where REG's nn is the fixed selector ss -/
def encRegImm (g : Nibble) (x : Reg) (nn : Byte) : Word := g ++ ((BitVec.ofFin x : Nibble) ++ nn)

/-- REGREG and DRAW: g x y n, where REGREG's n is the fixed selector s -/
def encRegReg (g : Nibble) (x y : Reg) (n : Nibble) : Word :=
  g ++ ((BitVec.ofFin x : Nibble) ++ ((BitVec.ofFin y : Nibble) ++ n))

/-- The word of an instruction (R84's patterns). -/
def encode : Instr → Word
  | .cls => 0x00E0
  | .ret => 0x00EE
  | .sys nnn => encAddr 0x0 nnn
  | .jp nnn => encAddr 0x1 nnn
  | .call nnn => encAddr 0x2 nnn
  | .seImm x nn => encRegImm 0x3 x nn
  | .sneImm x nn => encRegImm 0x4 x nn
  | .seReg x y => encRegReg 0x5 x y 0x0
  | .ldImm x nn => encRegImm 0x6 x nn
  | .addImm x nn => encRegImm 0x7 x nn
  | .ldReg x y => encRegReg 0x8 x y 0x0
  | .orReg x y => encRegReg 0x8 x y 0x1
  | .andReg x y => encRegReg 0x8 x y 0x2
  | .xorReg x y => encRegReg 0x8 x y 0x3
  | .addReg x y => encRegReg 0x8 x y 0x4
  | .subReg x y => encRegReg 0x8 x y 0x5
  | .shr x y => encRegReg 0x8 x y 0x6
  | .subnReg x y => encRegReg 0x8 x y 0x7
  | .shl x y => encRegReg 0x8 x y 0xE
  | .sneReg x y => encRegReg 0x9 x y 0x0
  | .ldI nnn => encAddr 0xA nnn
  | .jpV0 nnn => encAddr 0xB nnn
  | .rnd x nn => encRegImm 0xC x nn
  | .drw x y n => encRegReg 0xD x y n
  | .skp x => encRegImm 0xE x 0x9E
  | .sknp x => encRegImm 0xE x 0xA1
  | .ldVxDT x => encRegImm 0xF x 0x07
  | .ldVxK x => encRegImm 0xF x 0x0A
  | .ldDTVx x => encRegImm 0xF x 0x15
  | .ldSTVx x => encRegImm 0xF x 0x18
  | .addI x => encRegImm 0xF x 0x1E
  | .ldF x => encRegImm 0xF x 0x29
  | .ldB x => encRegImm 0xF x 0x33
  | .ldIVx x => encRegImm 0xF x 0x55
  | .ldVxI x => encRegImm 0xF x 0x65

/-- The two bytes of an instruction as memory holds them (R53). -/
def encodeBytes (i : Instr) : List Byte := [highByte (encode i), lowByte (encode i)]

/-! ## The (mask, match) pair of each instruction's row (R84) -/

/-- The bits of the word that select the instruction. -/
def Instr.rowMask : Instr → Word
  | .cls | .ret => 0xFFFF
  | .sys _ | .jp _ | .call _ | .seImm _ _ | .sneImm _ _ | .ldImm _ _ | .addImm _ _ | .ldI _ | .jpV0 _ | .rnd _ _
  | .drw _ _ _ => 0xF000
  | .seReg _ _ | .ldReg _ _ | .orReg _ _ | .andReg _ _ | .xorReg _ _ | .addReg _ _ | .subReg _ _ | .shr _ _
  | .subnReg _ _ | .shl _ _ | .sneReg _ _ => 0xF00F
  | .skp _ | .sknp _ | .ldVxDT _ | .ldVxK _ | .ldDTVx _ | .ldSTVx _ | .addI _ | .ldF _ | .ldB _ | .ldIVx _
  | .ldVxI _ => 0xF0FF

/-- What those bits are. -/
def Instr.rowMatch : Instr → Word
  | .cls => 0x00E0
  | .ret => 0x00EE
  | .sys _ => 0x0000
  | .jp _ => 0x1000
  | .call _ => 0x2000
  | .seImm _ _ => 0x3000
  | .sneImm _ _ => 0x4000
  | .seReg _ _ => 0x5000
  | .ldImm _ _ => 0x6000
  | .addImm _ _ => 0x7000
  | .ldReg _ _ => 0x8000
  | .orReg _ _ => 0x8001
  | .andReg _ _ => 0x8002
  | .xorReg _ _ => 0x8003
  | .addReg _ _ => 0x8004
  | .subReg _ _ => 0x8005
  | .shr _ _ => 0x8006
  | .subnReg _ _ => 0x8007
  | .shl _ _ => 0x800E
  | .sneReg _ _ => 0x9000
  | .ldI _ => 0xA000
  | .jpV0 _ => 0xB000
  | .rnd _ _ => 0xC000
  | .drw _ _ _ => 0xD000
  | .skp _ => 0xE09E
  | .sknp _ => 0xE0A1
  | .ldVxDT _ => 0xF007
  | .ldVxK _ => 0xF00A
  | .ldDTVx _ => 0xF015
  | .ldSTVx _ => 0xF018
  | .addI _ => 0xF01E
  | .ldF _ => 0xF029
  | .ldB _ => 0xF033
  | .ldIVx _ => 0xF055
  | .ldVxI _ => 0xF065

/-! ## The table's numbering, for the host -/

/-- The bytes of an instruction whose bits are `w` as opcode_table.json numbers them, bit 0 the least significant bit of
the one 16-bit word; bits from `nbits` up are zero. -/
def tableBytes (nbits w : Nat) : List Byte :=
  let op := BitVec.ofNat 16 (w % 2 ^ nbits)
  [highByte op, lowByte op]

/-- What the decoder reads from that instruction; every instruction is 16 bits, so more than 16 is none (R80). -/
def decodeTableWord (nbits w : Nat) : Option Instr :=
  if nbits ≤ 16 then
    match decodeBytes (tableBytes nbits w) with
    | .ok (i, _) => some i
    | .error _ => none
  else none

end Sys2Proof
end

