-- ==== Sys2Proof/Config.lean ====
section
/-! DEFINITION. The fixed parameters of the block (00_scope.md R8) and its one free value, the random byte of Cxnn. -/

namespace Sys2Proof.Config

/-- `MEM_SIZE`: bytes of memory, addresses 0x000 to 0xFFF (R8, R50). -/
abbrev memSize : Nat := 4096

/-- `STACK_DEPTH`: entries of the call stack (R8, R25). -/
abbrev stackDepth : Nat := 16

/-- `FB_W`: framebuffer columns (R8, R30). -/
abbrev fbWidth : Nat := 64

/-- `FB_H`: framebuffer rows (R8, R30). -/
abbrev fbHeight : Nat := 32

/-- `FONT_BASE`: address of glyph 0 (R8, R33). -/
abbrev fontBase : Nat := 0x050

/-- `GLYPH_BYTES`: bytes of one glyph (R8, R33). -/
abbrev glyphBytes : Nat := 5

/-- `ROM_BASE`: address of the first ROM byte (R8, R51). -/
abbrev romBase : Nat := 0x200

/-- `PC_RESET`: the PC after initialisation (R8, R40). -/
abbrev pcReset : Word := 0x200

/-- FREE VALUE (log entry 4). The byte the k-th execution of Cxnn draws: `randomByte()` of R142 and the input `rnd` of
R225, "any value 0..255, a new one at every execution of Cxnn, under no law" (D8). It has no body, so nothing can be
proved of the value it takes at any k. -/
opaque randomByte : Nat → Byte

end Sys2Proof.Config
end

