-- ==== Sys2Proof/Machine/State.lean ====
section
/-! DEFINITION. The state of the block (10_state.md R20 to R40), the reports of a step, the events of the surroundings,
and the state after initialisation. -/

namespace Sys2Proof.Machine

/-- Memory as (address, byte) pairs, addresses rising, no entry equal to what an unlisted address reads as
(`Memory.unlisted`, `Memory.wf` in Machine/Memory.lean). -/
abbrev Memory := List Host.Cell

/-- The pixels, `fb[y][x]`: row y from the top, column x from the left, true = on (R30). -/
abbrev Framebuffer := Vector (Vector Bool 64) 32

/-- The key-wait state machine of Fx0A (R32, R173). -/
inductive KeyWait where
  | idle
  | awaitingKey
deriving DecidableEq, Repr

/-- What a step hands to its caller (R105, R202). -/
inductive Report where
  /-- the step completed -/
  | none
  /-- no row of the opcode table matches `op` (R203) -/
  | decodeError (op : Word)
  /-- 2nnn with SP = 16 (R204) -/
  | stackOverflow
  /-- 00EE with SP = 0 (R205) -/
  | stackUnderflow
  /-- the fetch (addr = PC) or an access through I (addr = I) beyond 0xFFF (R206) -/
  | memoryBounds (addr : Word)
deriving DecidableEq, Repr

/-- An event of the surroundings other than the step and the load (R215). -/
inductive Event where
  /-- the timer driver's tick (R217) -/
  | tick
  /-- key k is pressed (R219) -/
  | keyDown (k : Key)
  /-- key k is released (R220) -/
  | keyUp (k : Key)
  /-- the renderer reads the framebuffer (R222) -/
  | fbRead
deriving DecidableEq, Repr

/-- The machine's state. The first twelve fields are the spec's (10_state.md: "The state is exactly ..."); the last four
are the model's own and carry a step's inputs and outputs. -/
structure State where
  /-- V0..VF (R20) -/
  v : Vector Byte 16
  /-- I, the index register (R22) -/
  i : Word
  /-- PC (R23) -/
  pc : Word
  /-- STACK[0..15] (R25, R26) -/
  stack : Vector Word 16
  /-- SP, how many return addresses are held, 0..16 (R25, R27) -/
  sp : Fin 17
  /-- MEM[0x000..0xFFF] (R28) -/
  mem : Memory
  /-- FB (R30) -/
  fb : Framebuffer
  /-- KEYS[0..15], true = down (R31) -/
  keys : Vector Bool 16
  /-- LASTREL, none = empty (R31) -/
  lastRel : Option Key
  /-- WAIT (R32) -/
  wait : KeyWait
  /-- DT, the delay timer (R34) -/
  dt : Byte
  /-- ST, the sound timer (R34) -/
  st : Byte
  /-- MODEL's own: how many random bytes have been drawn (R37(a), R142; log entry 4) -/
  draws : Nat
  /-- MODEL's own: the report output of the last step (R105, R201; log entry 1) -/
  report : Report
  /-- MODEL's own: every report other than none so far, newest first (D2; log entry 2) -/
  reportLog : List Report
  /-- MODEL's own: the events to come, the head being those that fall before the next step (R215, R216; log entry 3) -/
  arrivals : List (List Event)
deriving DecidableEq, Repr

/-- Why the machine stops. No step stops: the four error kinds are reports of a step that goes on (R105, R107, R201). -/
inductive Fault where
  /-- raised by `State.load` alone, when the bytes would exceed the 4096-byte bound: nothing is copied and the machine is
  not started (R52, R224, D11). SAFE: no run exists after it. -/
  | loadBounds (offset : Nat)
deriving DecidableEq, Repr

/-- Why an instruction has no meaning. -/
inductive Refusal where
  /-- raised by `exec` alone, for an instruction that has no meaning yet; no arm of it is left. SAFE: the run stops. -/
  | notModelled (mnemonic : String)
deriving DecidableEq, Repr

/-- The state after initialisation with an empty ROM (R40, R241): the font is what unlisted memory reads as. I, KEYS,
LASTREL and WAIT are D9's (log entry 6), the stack slots D20's (7), the model's own fields log entry 5's. -/
def State.reset : State where
  v := Vector.replicate 16 0
  i := 0
  pc := Config.pcReset
  stack := Vector.replicate 16 0
  sp := 0
  mem := []
  fb := Vector.replicate 32 (Vector.replicate 64 false)
  keys := Vector.replicate 16 false
  lastRel := none
  wait := .idle
  dt := 0
  st := 0
  draws := 0
  report := .none
  reportLog := []
  arrivals := []

end Sys2Proof.Machine
end

