-- ==== Sys2Proof/Machine/Flags.lean ====
section
/-! DEFINITION. Every value an instruction leaves in VF as a flag (10_state.md R21, 42_alu.md R130), and the arithmetic
beside it. -/

namespace Sys2Proof.Machine

/-- A flag as a register value: 0 or 1 (R21). -/
def flagByte (c : Bool) : Byte := if c then 1 else 0

/-- The exact sum of two registers, 0..510 (R130, R137). -/
def exactSum (a b : Byte) : Nat := a.toNat + b.toNat

/-- Carry: the exact sum exceeds 255 (R130, R137). -/
def carryFlag (a b : Byte) : Byte := flagByte (decide (exactSum a b > 255))

/-- No borrow: minuend >= subtrahend, equality included (R130, R138, R140). -/
def noBorrowFlag (minuend subtrahend : Byte) : Byte := flagByte (decide (minuend.toNat ≥ subtrahend.toNat))

/-- The bit shifted out to the right, bit 0 (R139). -/
def shiftedOutRight (a : Byte) : Byte := a &&& 1

/-- The bit shifted out to the left, bit 7 (R141). -/
def shiftedOutLeft (a : Byte) : Byte := (a >>> 7) &&& 1

/-- Whether a draw turned a pixel from on to off (R162). -/
def collisionFlag (c : Bool) : Byte := flagByte c

end Sys2Proof.Machine
end

