-- ==== Sys2Proof/Machine/Memory.lean ====
section
/-! DEFINITION. The 4 KB memory: its contents after initialisation, its canonical form, the byte primitives MemRead and
MemWrite with their bounds check (20_memory.md R50 to R59), and the block accesses built from them. -/

namespace Sys2Proof.Machine

/-- FONT, 16 glyphs of 5 bytes (10_state.md R33). Glyph 0 is the source's; glyphs 1 to F are PRESUMED: general knowledge
the spec supplies (D15, U12; log entry 8). -/
def fontBytes : List Byte :=
  [0xF0, 0x90, 0x90, 0x90, 0xF0] ++ [0x20, 0x60, 0x20, 0x20, 0x70] ++
  [0xF0, 0x10, 0xF0, 0x80, 0xF0] ++ [0xF0, 0x10, 0xF0, 0x10, 0xF0] ++
  [0x90, 0x90, 0xF0, 0x10, 0x10] ++ [0xF0, 0x80, 0xF0, 0x10, 0xF0] ++
  [0xF0, 0x80, 0xF0, 0x90, 0xF0] ++ [0xF0, 0x10, 0x20, 0x40, 0x40] ++
  [0xF0, 0x90, 0xF0, 0x90, 0xF0] ++ [0xF0, 0x90, 0xF0, 0x10, 0xF0] ++
  [0xF0, 0x90, 0xF0, 0x90, 0x90] ++ [0xE0, 0x90, 0xE0, 0x90, 0xE0] ++
  [0xF0, 0x80, 0x80, 0x80, 0xF0] ++ [0xE0, 0x90, 0x90, 0x90, 0xE0] ++
  [0xF0, 0x80, 0xF0, 0x80, 0xF0] ++ [0xF0, 0x80, 0xF0, 0x80, 0x80]

/-- What an unlisted address reads as: its content after initialisation with an empty ROM, the font at 0x050..0x09F and
zero elsewhere (R29, R51; log entry 9). -/
def Memory.unlisted (a : Nat) : Byte :=
  if Config.fontBase ≤ a then fontBytes.getD (a - Config.fontBase) 0 else 0

/-- The canonical form from address `lo` up: addresses rise, lie below 4096, and no entry equals the unlisted value. -/
def Memory.wfFrom : Nat → Memory → Bool
  | _, [] => true
  | lo, (k, b) :: m => decide (lo ≤ k) && decide (k < Config.memSize) && b != Memory.unlisted k && Memory.wfFrom (k + 1) m

/-- The canonical form: equal memories are equal lists. -/
def Memory.wf (m : Memory) : Bool := Memory.wfFrom 0 m

/-- The byte last written to an address, else its content after initialisation (R59). -/
def Memory.get : Memory → Nat → Byte
  | [], a => Memory.unlisted a
  | (k, b) :: m, a => if k = a then b else Memory.get m a

/-- The list without an entry for `a`. -/
def Memory.drop : Memory → Nat → Memory
  | [], _ => []
  | (k, b) :: m, a => if k = a then Memory.drop m a else (k, b) :: Memory.drop m a

/-- The list with an entry (a, b) before the first larger address. -/
def Memory.insert : Memory → Nat → Byte → Memory
  | [], a, b => [(a, b)]
  | (k, c) :: m, a, b => if a < k then (a, b) :: (k, c) :: m else (k, c) :: Memory.insert m a b

/-- Store one byte and keep the canonical form: writing the unlisted value removes the entry. -/
def Memory.put (m : Memory) (a : Nat) (b : Byte) : Memory :=
  if b = Memory.unlisted a then Memory.drop m a else Memory.insert (Memory.drop m a) a b

/-- `MemRead(addr, 1)`: none beyond 0xFFF, never wrapped or masked (R55). -/
def Memory.read (m : Memory) (a : Nat) : Option Byte :=
  if a < Config.memSize then some (Memory.get m a) else none

/-- `MemWrite(addr, 1, v)`: none beyond 0xFFF (R56). -/
def Memory.write (m : Memory) (a : Nat) (b : Byte) : Option Memory :=
  if a < Config.memSize then some (Memory.put m a b) else none

/-- `MemRead(addr, 2)`: big-endian, none if either byte is beyond 0xFFF (R53, R55, R69); used by the fetch alone. -/
def Memory.readWord (m : Memory) (a : Nat) : Option Word :=
  match Memory.read m a, Memory.read m (a + 1) with
  | some hi, some lo => some (hi ++ lo)
  | _, _ => none

/-- Read `n` bytes from `a` up, lowest address first; none if any of them is beyond 0xFFF (R57, R58). No byte is read,
and none is out of range, when n = 0. -/
def Memory.readBytes (m : Memory) : Nat → Nat → Option (List Byte)
  | _, 0 => some []
  | a, n + 1 =>
    match Memory.read m a, Memory.readBytes m (a + 1) n with
    | some b, some bs => some (b :: bs)
    | _, _ => none

/-- Write bytes from `a` up, lowest address first; none, so that nothing is written, if any of them is beyond 0xFFF
(R57, R58). -/
def Memory.writeBytes (m : Memory) : Nat → List Byte → Option Memory
  | _, [] => some m
  | a, b :: bs =>
    match Memory.write m a b with
    | some m' => Memory.writeBytes m' (a + 1) bs
    | none => none

end Sys2Proof.Machine
end

