-- ==== Sys2Proof/Machine/Operands.lean ====
section
/-! DEFINITION. The operand forms: register fields, immediates widened with zeros, the key a register selects, the block
V0..Vx and the decimal digits of a byte (30_encoding.md R82, R83). -/

namespace Sys2Proof.Machine

/-- Read `V[x]`; all 16 registers are ordinary (R20, R83). -/
def State.reg (s : State) (x : Reg) : Byte := s.v[x.val]

/-- Write `V[x]` (R20). -/
def State.setReg (s : State) (x : Reg) (b : Byte) : State := { s with v := s.v.set x.val b }

/-- `zext_16(nnn)` (R83). -/
def addrOperand (nnn : Addr12) : Word := nnn.setWidth 16

/-- `zext_16(V[x])` (R115, R151, R152). -/
def byteOperand (b : Byte) : Word := b.setWidth 16

/-- The key Ex9E and ExA1 test: V[x][3:0], bits 7:4 ignored (R170; D7, log entry 11). -/
def keyOperand (b : Byte) : Key := (b.extractLsb' 0 4).toFin

/-- `zext_8(r)` of a key number (R173). -/
def keyByte (k : Key) : Byte := BitVec.ofNat 8 k.val

/-- The values of V0..Vx, the block Fx55 stores (R154). -/
def State.regBlock (s : State) (x : Reg) : List Byte := s.v.toList.take (x.val + 1)

/-- How many bytes Fx65 loads for x: x + 1 (R58, R155). -/
def blockCount (x : Reg) : Nat := x.val + 1

/-- `for k: V[k] <- bytes[k]`, from register k up (R155). -/
def State.loadRegs (s : State) : Nat → List Byte → State
  | _, [] => s
  | k, b :: bs => (s.setReg (Fin.ofNat 16 k) b).loadRegs (k + 1) bs

/-- Hundreds, tens and ones of a byte, one digit a byte (R153). -/
def bcdDigits (b : Byte) : List Byte :=
  [BitVec.ofNat 8 (b.toNat / 100), BitVec.ofNat 8 (b.toNat / 10 % 10), BitVec.ofNat 8 (b.toNat % 10)]

/-- The address of glyph Vx: 0x050 + 5·Vx, the whole of Vx, no mask (R152). -/
def glyphAddress (b : Byte) : Word := BitVec.ofNat 16 Config.fontBase + 5 * byteOperand b

end Sys2Proof.Machine
end

