-- ==== Sys2Proof/Machine/Ops.lean ====
section
/-! DEFINITION. The named operations that meanings and the step are written with: raising a report, the skip and the
rewind, the call stack, the checked accesses through I, and the phases of a step around execution. -/

namespace Sys2Proof.Machine

/-- What a meaning answers. -/
abbrev Outcome := Host.Outcome State Fault Refusal

/-! ## Raising a report (40_step_cycle.md R105, 60_exceptions.md R200 to R210) -/

/-- `raise K(info)`: the only trap entry of the hardware. The report output carries the kind; nothing is saved, no mode
changes and control goes nowhere (R201, R209). The caller has made no state change before it, so that only the fetch's PC
advance stands (R105, R202). There is no return from it (R210). -/
def State.raise (s : State) (r : Report) : State := { s with report := r, reportLog := r :: s.reportLog }

/-- The numeric code of a report (R202, D2; log entry 22). -/
def Report.code : Report → Nat
  | .none => 0
  | .decodeError _ => 1
  | .stackOverflow => 2
  | .stackUnderflow => 3
  | .memoryBounds _ => 4

/-- The information value of a report (R202, D2, D16; log entry 22). -/
def Report.info : Report → Option Word
  | .none => Option.none
  | .decodeError op => some op
  | .stackOverflow => Option.none
  | .stackUnderflow => Option.none
  | .memoryBounds addr => some addr

/-! ## Program counter (10_state.md R23, R24: 16 bits, D12 log entry 18) -/

/-- `PC <- target`. -/
def State.jump (s : State) (target : Word) : State := { s with pc := target }

/-- A skip: PC + 2 once more, when the condition holds (R110). -/
def State.skipIf (s : State) (c : Bool) : State := if c then s.jump (s.pc + 2) else s

/-- A rewind: PC - 2, so that the same instruction is fetched again (R16, R173). -/
def State.rewind (s : State) : State := s.jump (s.pc - 2)

/-! ## Call stack (10_state.md R25 to R27) -/

/-- Push a return address: STACK[SP] <- w, SP <- SP + 1; none when SP = 16 (R114). -/
def State.push (s : State) (w : Word) : Option State :=
  if h : s.sp.val < 16 then
    some { s with stack := s.stack.set s.sp.val w, sp := ⟨s.sp.val + 1, Nat.succ_lt_succ h⟩ }
  else none

/-- Pop a return address: SP <- SP - 1, the word is STACK[SP], the slot keeps its value (R26, R111); none when SP = 0. -/
def State.pop (s : State) : Option (Word × State) :=
  if h : 0 < s.sp.val then
    some (s.stack[s.sp.val - 1], { s with sp := ⟨s.sp.val - 1, Nat.lt_of_le_of_lt (Nat.sub_le _ _) s.sp.isLt⟩ })
  else none

/-! ## Accesses through I (20_memory.md R57, 43_index_memory.md R156; D4, log entry 12) -/

/-- Store bytes at I, I + 1, ...; if any is beyond 0xFFF nothing is written and MemoryBoundsError(I) is raised. -/
def State.storeBlock (s : State) (bytes : List Byte) : Outcome :=
  match s.mem.writeBytes s.i.toNat bytes with
  | some m => .next { s with mem := m }
  | none => .next (s.raise (.memoryBounds s.i))

/-- Read n bytes from I on and go on with them; if any is beyond 0xFFF nothing changes and MemoryBoundsError(I) is
raised. -/
def State.withBlock (s : State) (n : Nat) (use : List Byte → State) : Outcome :=
  match s.mem.readBytes s.i.toNat n with
  | some bytes => .next (use bytes)
  | none => .next (s.raise (.memoryBounds s.i))

/-! ## The phases of a step around execution (40_step_cycle.md R101) -/

/-- The fetch: MEM[PC] :: MEM[PC+1], none when PC >= 0xFFF (R69, R102). -/
def State.fetch (s : State) : Option Word := s.mem.readWord s.pc.toNat

/-- The end of a step whose fetch is out of bounds: PC is not advanced (R102; D5, log entry 13). -/
def State.fetchFault (s : State) : State := s.raise (.memoryBounds s.pc)

/-- The PC advance, before decode and execute; the report output is none until something raises (R101, R105). -/
def State.advance (s : State) : State := { s with pc := s.pc + 2, report := .none }

/-- The end of a step whose opcode is unrecognized: the PC advance stands, nothing else changes (R104). -/
def State.unrecognized (s : State) (op : Word) : State := s.raise (.decodeError op)

end Sys2Proof.Machine
end

