-- ==== Sys2Proof/Machine/Alu.lean ====
section
/-! DEFINITION. Register load, arithmetic, logic, shift and random instructions (42_alu.md). The statements of a row are
executed in the order written, each reading the state the one before it left (00_scope.md R14; D6, log entry 10). -/

namespace Sys2Proof.Machine

/-- 6xnn LD Vx, nn (R131). -/
def execLdImm (x : Reg) (nn : Byte) (s : State) : Outcome := .next (s.setReg x nn)

/-- 7xnn ADD Vx, nn: mod 256, no flag (R132). -/
def execAddImm (x : Reg) (nn : Byte) (s : State) : Outcome := .next (s.setReg x (s.reg x + nn))

/-- 8xy0 LD Vx, Vy (R133). -/
def execLdReg (x y : Reg) (s : State) : Outcome := .next (s.setReg x (s.reg y))

/-- 8xy1 OR: no flag (R134). -/
def execOrReg (x y : Reg) (s : State) : Outcome := .next (s.setReg x (s.reg x ||| s.reg y))

/-- 8xy2 AND: no flag (R135). -/
def execAndReg (x y : Reg) (s : State) : Outcome := .next (s.setReg x (s.reg x &&& s.reg y))

/-- 8xy3 XOR: no flag (R136). -/
def execXorReg (x y : Reg) (s : State) : Outcome := .next (s.setReg x (s.reg x ^^^ s.reg y))

/-- 8xy4 ADD: the sum mod 256, then VF <- carry (R137). -/
def execAddReg (x y : Reg) (s : State) : Outcome :=
  .next ((s.setReg x (BitVec.ofNat 8 (exactSum (s.reg x) (s.reg y)))).setReg VF (carryFlag (s.reg x) (s.reg y)))

/-- 8xy5 SUB: VF <- no borrow, then Vx <- Vx - Vy read after that write (R138). -/
def execSubReg (x y : Reg) (s : State) : Outcome :=
  let t := s.setReg VF (noBorrowFlag (s.reg x) (s.reg y))
  .next (t.setReg x (t.reg x - t.reg y))

/-- 8xy6 SHR: VF <- bit 0, then Vx <- Vx >> 1 read after that write; y ignored (R139, R87). -/
def execShr (x _y : Reg) (s : State) : Outcome :=
  let t := s.setReg VF (shiftedOutRight (s.reg x))
  .next (t.setReg x (t.reg x >>> 1))

/-- 8xy7 SUBN: VF <- no borrow, then Vx <- Vy - Vx read after that write (R140). -/
def execSubnReg (x y : Reg) (s : State) : Outcome :=
  let t := s.setReg VF (noBorrowFlag (s.reg y) (s.reg x))
  .next (t.setReg x (t.reg y - t.reg x))

/-- 8xyE SHL: VF <- bit 7, then Vx <- Vx << 1 read after that write; y ignored (R141, R87). -/
def execShl (x _y : Reg) (s : State) : Outcome :=
  let t := s.setReg VF (shiftedOutLeft (s.reg x))
  .next (t.setReg x (t.reg x <<< 1))

/-- Cxnn RND: a fresh random byte AND nn; the byte is the free value `Config.randomByte` (R142; D8, log entry 4). -/
def execRnd (x : Reg) (nn : Byte) (s : State) : Outcome :=
  .next (({ s with draws := s.draws + 1 } : State).setReg x (Config.randomByte s.draws &&& nn))

end Sys2Proof.Machine
end

