-- ==== Sys2Proof/Machine/Framebuffer.lean ====
section
/-! DEFINITION. The framebuffer unit: clear, flip one pixel, and the XOR draw of a sprite with wrap-around and collision
(10_state.md R30, 44_display.md R160 to R163). -/

namespace Sys2Proof.Machine

/-- The pixel at column x, row y (R30). -/
def Framebuffer.pixel (fb : Framebuffer) (y : Fin 32) (x : Fin 64) : Bool := fb[y.val][x.val]

/-- XOR one pixel with 1 (R162). -/
def Framebuffer.flip (fb : Framebuffer) (y : Fin 32) (x : Fin 64) : Framebuffer :=
  fb.set y.val (fb[y.val].set x.val (!fb[y.val][x.val]))

/-- `clear()`: every pixel off (R161). -/
def Framebuffer.cleared : Framebuffer := Vector.replicate 32 (Vector.replicate 64 false)

/-- Whether column `col` of a sprite row is set: bit 7 is column 0 (R160; D14, log entry 15). -/
def spriteBit (b : Byte) (col : Nat) : Bool := b.getLsbD (7 - col)

/-- The body of R162's inner loop: flip the pixel a set bit falls on, coordinates mod 64 and mod 32, and note a pixel
that went from on to off. -/
def drawBit (x0 y0 row : Nat) (b : Byte) (acc : Framebuffer × Bool) (col : Nat) : Framebuffer × Bool :=
  if spriteBit b col then
    let px : Fin 64 := Fin.ofNat 64 (x0 + col)
    let py : Fin 32 := Fin.ofNat 32 (y0 + row)
    (acc.1.flip py px, acc.2 || acc.1.pixel py px)
  else acc

/-- One sprite row: columns 0 to 7 (R162). -/
def drawRow (x0 y0 row : Nat) (b : Byte) (acc : Framebuffer × Bool) : Framebuffer × Bool :=
  (List.range 8).foldl (drawBit x0 y0 row b) acc

/-- The sprite rows from `row` on (R162). -/
def drawRows (x0 y0 : Nat) : Nat → List Byte → Framebuffer × Bool → Framebuffer × Bool
  | _, [], acc => acc
  | row, b :: bs, acc => drawRows x0 y0 (row + 1) bs (drawRow x0 y0 row b acc)

/-- `drawSprite`: the new grid, and whether any pixel went from on to off (R162). -/
def drawSprite (fb : Framebuffer) (x0 y0 : Byte) (sprite : List Byte) : Framebuffer × Bool :=
  drawRows x0.toNat y0.toNat 0 sprite (fb, false)

end Sys2Proof.Machine
end

