-- ==== Sys2Proof/Machine/Display.lean ====
section
/-! DEFINITION. Display instructions (44_display.md). -/

namespace Sys2Proof.Machine

/-- 00E0 CLS: every pixel off (R161). -/
def execCls (s : State) : Outcome := .next { s with fb := Framebuffer.cleared }

/-- Dxyn DRW: XOR n sprite rows from I at (Vx, Vy), both read before VF is written; VF <- collision, written last
(R162). n = 0 reads nothing and leaves VF = 0 (R163(b)). -/
def execDrw (x y : Reg) (n : Nibble) (s : State) : Outcome :=
  s.withBlock n.toNat fun sprite =>
    let drawn := drawSprite s.fb (s.reg x) (s.reg y) sprite
    ({ s with fb := drawn.1 } : State).setReg VF (collisionFlag drawn.2)

end Sys2Proof.Machine
end

