-- ==== Sys2Proof/Machine/Flow.lean ====
section
/-! DEFINITION. Control transfer (41_flow.md). When a meaning runs, PC is already the address of the next instruction
(40_step_cycle.md R101). -/

namespace Sys2Proof.Machine

/-- 00EE RET: pop the stack into PC; StackUnderflow when it is empty (R111; D3, log entry 14). -/
def execRet (s : State) : Outcome :=
  match s.pop with
  | some (w, t) => .next (t.jump w)
  | none => .next (s.raise .stackUnderflow)

/-- 0nnn SYS: no operation, nnn ignored (R112). -/
def execSys (_nnn : Addr12) (s : State) : Outcome := .next s

/-- 1nnn JP (R113). -/
def execJp (nnn : Addr12) (s : State) : Outcome := .next (s.jump (addrOperand nnn))

/-- 2nnn CALL: push PC, then jump; StackOverflow when the stack is full (R114; D3, log entry 14). -/
def execCall (nnn : Addr12) (s : State) : Outcome :=
  match s.push s.pc with
  | some t => .next (t.jump (addrOperand nnn))
  | none => .next (s.raise .stackOverflow)

/-- Bnnn JP V0: nnn + V0, in 16 bits, always V0 (R115). -/
def execJpV0 (nnn : Addr12) (s : State) : Outcome := .next (s.jump (addrOperand nnn + byteOperand (s.reg 0)))

/-- 3xnn SE Vx, nn (R116). -/
def execSeImm (x : Reg) (nn : Byte) (s : State) : Outcome := .next (s.skipIf (s.reg x == nn))

/-- 4xnn SNE Vx, nn (R117). -/
def execSneImm (x : Reg) (nn : Byte) (s : State) : Outcome := .next (s.skipIf (s.reg x != nn))

/-- 5xy0 SE Vx, Vy (R118). -/
def execSeReg (x y : Reg) (s : State) : Outcome := .next (s.skipIf (s.reg x == s.reg y))

/-- 9xy0 SNE Vx, Vy (R119). -/
def execSneReg (x y : Reg) (s : State) : Outcome := .next (s.skipIf (s.reg x != s.reg y))

end Sys2Proof.Machine
end

