-- ==== Sys2Proof/Machine/Index.lean ====
section
/-! DEFINITION. Index register and memory transfer (43_index_memory.md). I keeps its value through Fx33, Fx55 and Fx65
(R156). -/

namespace Sys2Proof.Machine

/-- Annn LD I, nnn (R150). -/
def execLdI (nnn : Addr12) (s : State) : Outcome := .next { s with i := addrOperand nnn }

/-- Fx1E ADD I, Vx: mod 65536, no flag, no range check (R151). -/
def execAddI (x : Reg) (s : State) : Outcome := .next { s with i := s.i + byteOperand (s.reg x) }

/-- Fx29 LD F, Vx: 0x050 + 5·Vx (R152). -/
def execLdF (x : Reg) (s : State) : Outcome := .next { s with i := glyphAddress (s.reg x) }

/-- Fx33 LD B, Vx: hundreds, tens, ones at I, I + 1, I + 2 (R153). -/
def execLdB (x : Reg) (s : State) : Outcome := s.storeBlock (bcdDigits (s.reg x))

/-- Fx55 LD [I], Vx: V0..Vx at I..I + x (R154). -/
def execLdIVx (x : Reg) (s : State) : Outcome := s.storeBlock (s.regBlock x)

/-- Fx65 LD Vx, [I]: V0..Vx from I..I + x (R155). -/
def execLdVxI (x : Reg) (s : State) : Outcome := s.withBlock (blockCount x) (s.loadRegs 0)

end Sys2Proof.Machine
end

