-- ==== Sys2Proof/Machine/Keypad.lean ====
section
/-! DEFINITION. Keypad instructions and the key-wait state machine (45_keypad.md). -/

namespace Sys2Proof.Machine

/-- Whether key k is down: a pure query (R171). -/
def State.isDown (s : State) (k : Key) : Bool := s.keys[k.val]

/-- Ex9E SKP Vx (R171). -/
def execSkp (x : Reg) (s : State) : Outcome := .next (s.skipIf (s.isDown (keyOperand (s.reg x))))

/-- ExA1 SKNP Vx (R172). -/
def execSknp (x : Reg) (s : State) : Outcome := .next (s.skipIf (!s.isDown (keyOperand (s.reg x))))

/-- Fx0A LD Vx, K: on entry discard a stale release, wait and rewind; while waiting rewind; when a release is pending,
consume it, store it and stop waiting (R173; D18, log entry 17). -/
def execLdVxK (x : Reg) (s : State) : Outcome :=
  match s.wait with
  | .idle => .next ({ s with wait := .awaitingKey, lastRel := none } : State).rewind
  | .awaitingKey =>
    match s.lastRel with
    | none => .next s.rewind
    | some k => .next (({ s with wait := .idle, lastRel := none } : State).setReg x (keyByte k))

end Sys2Proof.Machine
end

