-- ==== Sys2Proof/Machine/Timers.lean ====
section
/-! DEFINITION. Timer instructions (46_timers.md). The decrement is the tick event's (Machine/Events.lean). -/

namespace Sys2Proof.Machine

/-- Fx07 LD Vx, DT (R181). -/
def execLdVxDT (x : Reg) (s : State) : Outcome := .next (s.setReg x s.dt)

/-- Fx15 LD DT, Vx (R182). -/
def execLdDTVx (x : Reg) (s : State) : Outcome := .next { s with dt := s.reg x }

/-- Fx18 LD ST, Vx (R183). -/
def execLdSTVx (x : Reg) (s : State) : Outcome := .next { s with st := s.reg x }

end Sys2Proof.Machine
end

