-- ==== Sys2Proof/Machine/Events.lean ====
section
/-! DEFINITION. What the surroundings do to the block: the events of 60_exceptions.md R215 (ticks, keys, reads, the load),
the initialisation sequence (70_reset_and_hazards.md R243), and the outputs (10_state.md R39). -/

namespace Sys2Proof.Machine

/-- A timer's decrement, clamped at 0 (R217). -/
def countDown (b : Byte) : Byte := if b.toNat > 0 then b - 1 else b

/-- `tick()` (R217). -/
def State.tick (s : State) : State := { s with dt := countDown s.dt, st := countDown s.st }

/-- `key_down(k)` (R219). -/
def State.keyDown (s : State) (k : Key) : State := { s with keys := s.keys.set k.val true }

/-- `key_up(k)`: publishes k, whether or not anything waits (R220). -/
def State.keyUp (s : State) (k : Key) : State := { s with keys := s.keys.set k.val false, lastRel := some k }

/-- One event, one atomic transition (R216). A read of the framebuffer changes no state; what it returns is
`State.fbOut` (R222). -/
def State.event (s : State) : Event → State
  | .tick => s.tick
  | .keyDown k => s.keyDown k
  | .keyUp k => s.keyUp k
  | .fbRead => s

/-- A sequence of events, each seeing the state the one before it left (R216). -/
def State.events (s : State) : List Event → State
  | [] => s
  | e :: es => (s.event e).events es

/-- The events that fall before the next step have happened (R216; log entry 3). -/
def State.arrive (s : State) : State :=
  match s.arrivals with
  | [] => s
  | es :: rest => ({ s with arrivals := rest } : State).events es

/-- The level output `sound_on` (R39, R223). -/
def State.soundOn (s : State) : Bool := s.st != 0

/-- The output `fb_out`, what `fb_read()` returns (R39, R222). -/
def State.fbOut (s : State) : Framebuffer := s.fb

/-- `load(offset, bytes)`: fails whole if it would exceed the 4096-byte bound (R52, R224; D11, log entry 19). -/
def State.load (s : State) (offset : Nat) (bytes : List Byte) : Outcome :=
  if offset + bytes.length ≤ Config.memSize then
    match s.mem.writeBytes offset bytes with
    | some m => .next { s with mem := m }
    | none => .fault (.loadBounds offset)
  else .fault (.loadBounds offset)

/-- All 4096 bytes zero: only the addresses of the font are listed, since the others read as zero unlisted. -/
def Memory.zero : Memory := (List.range' Config.fontBase fontBytes.length).map (fun a => (a, 0))

/-- R243 step 1: the state with R241's values and all 4096 bytes zero. -/
def State.created : State := { State.reset with mem := Memory.zero }

/-- R243: create the state, load the font at 0x050, load the ROM at 0x200. -/
def boot (rom : List Byte) : Outcome :=
  match State.created.load Config.fontBase fontBytes with
  | .next s => s.load Config.romBase rom
  | .fault f => .fault f
  | .refused r => .refused r

end Sys2Proof.Machine
end

