-- ==== Sys2Proof/Machine/Step.lean ====
section
/-! DEFINITION. The single step (40_step_cycle.md R100, R101), and the host's placing of one instruction. -/

namespace Sys2Proof.Machine

/-- R101: fetch, advance PC, decode, execute. -/
def State.stepBlock (s : State) : Host.Outcome State Fault Refusal :=
  match s.fetch with
  | none => .next s.fetchFault
  | some op =>
    match decode op with
    | .error _ => .next (s.advance.unrecognized op)
    | .ok i => exec i s.advance

/-- The events that fall before this step (R216; log entry 3), then the step of R101. -/
def step (s : State) : Host.Outcome State Fault Refusal := s.arrive.stepBlock

/-- A PC an instruction can be fetched from (R102): the state's own, else the entry point (log entry 24). -/
def State.fetchablePc (s : State) : Word := if s.pc.toNat + 1 < Config.memSize then s.pc else Config.pcReset

/-- The state with the table's instruction stored where the next step fetches: its two bytes at PC and PC + 1 (R53).
It stands for R243's load of a program (log entry 9). -/
def State.withFetchWord (s : State) (nbits w : Nat) : State :=
  match s.mem.writeBytes s.fetchablePc.toNat (tableBytes nbits w) with
  | some m => { s with mem := m, pc := s.fetchablePc }
  | none => s

end Sys2Proof.Machine
end

