-- ==== Sys2Proof/Safety.lean ====
section
/-! DEFINITION. What counts as a safe run: D2 and U1 to U4, U9 ask a claim to take "no report other than none" as a
premise or a conclusion. -/

namespace Sys2Proof.Machine

/-- The last step handed its caller no error (40_step_cycle.md R105). -/
abbrev State.Quiet (s : State) : Prop := s.report = .none

/-- No step of the run so far has reported an error (D2; log entry 2). -/
abbrev State.Clean (s : State) : Prop := s.reportLog = []

/-- The next step completes with report none. -/
def State.StepsQuietly (s : State) : Prop := ∃ t, step s = .next t ∧ t.Quiet

/-- k steps complete, none of them with a report. -/
def State.RunsCleanly (s : State) (k : Nat) : Prop := ∃ t, Sys2Proof.core.run k s = .next t ∧ t.reportLog = s.reportLog

end Sys2Proof.Machine
end

