-- ==== Sys2Proof/Certificates/Slice0/Obligations.lean ====
section
/-! DEFINITION. The statements for the provers. The notions they share stand first: a part of the state, agreement at a
part, the frame, and the sets of parts the spec's rules list as written. Comments cite rules R<n> of spec/, decisions D<n>
of 92_eei_decisions.md and entries of notes/assumptions/. -/

namespace Sys2Proof.Machine

/-- The parts of the state a frame speaks of, one by one (10_state.md R20 to R34; the last four are the model's own). -/
inductive Part where
  | reg (x : Reg)
  | i
  | pc
  | slot (j : Fin 16)
  | sp
  | byte (a : Nat)
  | pixel (y : Fin 32) (x : Fin 64)
  | key (k : Key)
  | lastRel
  | wait
  | dt
  | st
  | draws
  | report
  | reportLog
  | arrivals
deriving DecidableEq, Repr

/-- `s` and `t` agree at a part; a byte of memory agrees when MemRead gives the same (R55). -/
def State.SameAt (s t : State) : Part → Prop
  | .reg x => t.reg x = s.reg x
  | .i => t.i = s.i
  | .pc => t.pc = s.pc
  | .slot j => t.stack[j.val] = s.stack[j.val]
  | .sp => t.sp = s.sp
  | .byte a => t.mem.read a = s.mem.read a
  | .pixel y x => t.fb.pixel y x = s.fb.pixel y x
  | .key k => t.isDown k = s.isDown k
  | .lastRel => t.lastRel = s.lastRel
  | .wait => t.wait = s.wait
  | .dt => t.dt = s.dt
  | .st => t.st = s.st
  | .draws => t.draws = s.draws
  | .report => t.report = s.report
  | .reportLog => t.reportLog = s.reportLog
  | .arrivals => t.arrivals = s.arrivals

/-- The frame: from `s` to `t` nothing but the parts in `W` has changed (R15). -/
def State.Frame (s t : State) (W : Part → Prop) : Prop := ∀ p, ¬ W p → s.SameAt t p

/-- Nothing but the listed parts has changed. -/
def State.OnlyChanged (s t : State) (parts : List Part) : Prop := s.Frame t (· ∈ parts)

/-- `t` is `s` with the report `r` raised and nothing else changed (R105; log entries 1 and 2). -/
def State.Reported (s t : State) (r : Report) : Prop :=
  t.report = r ∧ t.reportLog = r :: s.reportLog ∧ s.OnlyChanged t [.report, .reportLog]

/-- The `count` bytes from I on all exist (R57): the whole range is checked. -/
def State.RangeOk (s : State) (count : Nat) : Prop := count = 0 ∨ s.i.toNat + count - 1 ≤ 0xFFF

/-- An address among the `count` bytes from I on. -/
def State.InBlock (s : State) (count : Nat) (a : Nat) : Prop := s.i.toNat ≤ a ∧ a < s.i.toNat + count

/-- A set sprite bit of `DRW Vx, Vy, n` falls on the pixel at column px, row py: read backwards from the pixel, its
column and row within the sprite, with wrap-around (R162), bit 7 the leftmost (R160; D14, log entry 15). -/
def State.SpriteCovers (s : State) (x y : Reg) (n : Nibble) (py : Fin 32) (px : Fin 64) : Prop :=
  let col := (px.val + 64 - (s.reg x).toNat % 64) % 64
  let row := (py.val + 32 - (s.reg y).toNat % 32) % 32
  col < 8 ∧ row < n.toNat ∧ ∃ b, s.mem.read (s.i.toNat + row) = some b ∧ b.getLsbD (7 - col) = true

/-- The x field of an instruction that has one (R81). -/
def xField : Instr → Option Reg
  | .cls | .ret | .sys _ | .jp _ | .call _ | .ldI _ | .jpV0 _ => none
  | .seImm x _ | .sneImm x _ | .seReg x _ | .ldImm x _ | .addImm x _ | .ldReg x _ | .orReg x _ | .andReg x _
  | .xorReg x _ | .addReg x _ | .subReg x _ | .shr x _ | .subnReg x _ | .shl x _ | .sneReg x _ | .rnd x _
  | .drw x _ _ | .skp x | .sknp x | .ldVxDT x | .ldVxK x | .ldDTVx x | .ldSTVx x | .addI x | .ldF x | .ldB x
  | .ldIVx x | .ldVxI x => some x

/-- The y field of an instruction that reads it (R81, R87). -/
def yField : Instr → Option Reg
  | .seReg _ y | .ldReg _ y | .orReg _ y | .andReg _ y | .xorReg _ y | .addReg _ y | .subReg _ y | .subnReg _ y
  | .sneReg _ y | .drw _ y _ => some y
  | .cls | .ret | .sys _ | .jp _ | .call _ | .ldI _ | .jpV0 _ | .seImm _ _ | .sneImm _ _ | .ldImm _ _ | .addImm _ _
  | .rnd _ _ | .shr _ _ | .shl _ _ | .skp _ | .sknp _ | .ldVxDT _ | .ldVxK _ | .ldDTVx _ | .ldSTVx _ | .addI _
  | .ldF _ | .ldB _ | .ldIVx _ | .ldVxI _ => none

/-- The instructions that write VF as a side effect: 8xy4, 8xy5, 8xy6, 8xy7, 8xyE, Dxyn (R21). -/
def writesFlag : Instr → Bool
  | .addReg _ _ | .subReg _ _ | .shr _ _ | .subnReg _ _ | .shl _ _ | .drw _ _ _ => true
  | .cls | .ret | .sys _ | .jp _ | .call _ | .ldI _ | .jpV0 _ | .seImm _ _ | .sneImm _ _ | .seReg _ _ | .ldImm _ _
  | .addImm _ _ | .ldReg _ _ | .orReg _ _ | .andReg _ _ | .xorReg _ _ | .sneReg _ _ | .rnd _ _ | .skp _ | .sknp _
  | .ldVxDT _ | .ldVxK _ | .ldDTVx _ | .ldSTVx _ | .addI _ | .ldF _ | .ldB _ | .ldIVx _ | .ldVxI _ => false

/-- The parts an access through I may change: `W` when the range is valid, else the report alone (R57, R202). -/
def ifRange (s : State) (count : Nat) (W : Part → Prop) (p : Part) : Prop :=
  (s.RangeOk count ∧ W p) ∨ (¬ s.RangeOk count ∧ p ∈ [Part.report, .reportLog])

/-- What the rule of an instruction lists as written, when it executes from `s` (R15, R111 to R183). -/
def Writes : Instr → State → Part → Prop
  | .cls, _, p => ∃ y x, p = .pixel y x
  | .ret, s, p => (s.sp.val ≠ 0 ∧ p ∈ [Part.sp, .pc]) ∨ (s.sp.val = 0 ∧ p ∈ [Part.report, .reportLog])
  | .sys _, _, _ => False
  | .jp _, _, p => p = .pc
  | .call _, s, p =>
    (s.sp.val ≠ 16 ∧ (p ∈ [Part.sp, .pc] ∨ ∃ j : Fin 16, j.val = s.sp.val ∧ p = .slot j)) ∨
      (s.sp.val = 16 ∧ p ∈ [Part.report, .reportLog])
  | .seImm _ _, _, p | .sneImm _ _, _, p | .seReg _ _, _, p | .sneReg _ _, _, p | .jpV0 _, _, p | .skp _, _, p
  | .sknp _, _, p => p = .pc
  | .ldImm x _, _, p | .addImm x _, _, p | .ldReg x _, _, p | .orReg x _, _, p | .andReg x _, _, p
  | .xorReg x _, _, p | .ldVxDT x, _, p => p = .reg x
  | .addReg x _, _, p | .subReg x _, _, p | .shr x _, _, p | .subnReg x _, _, p | .shl x _, _, p =>
    p ∈ [Part.reg x, .reg VF]
  | .rnd x _, _, p => p ∈ [Part.reg x, .draws]
  | .ldI _, _, p | .addI _, _, p | .ldF _, _, p => p = .i
  | .drw x y n, s, p =>
    ifRange s n.toNat (fun p => p = .reg VF ∨ ∃ py px, s.SpriteCovers x y n py px ∧ p = .pixel py px) p
  | .ldVxK x, s, p =>
    match s.wait, s.lastRel with
    | .idle, _ => p ∈ [Part.wait, .lastRel, .pc]
    | .awaitingKey, none => p = .pc
    | .awaitingKey, some _ => p ∈ [Part.reg x, .lastRel, .wait]
  | .ldDTVx _, _, p => p = .dt
  | .ldSTVx _, _, p => p = .st
  | .ldB _, s, p => ifRange s 3 (fun p => ∃ a, s.InBlock 3 a ∧ p = .byte a) p
  | .ldIVx x, s, p => ifRange s (x.val + 1) (fun p => ∃ a, s.InBlock (x.val + 1) a ∧ p = .byte a) p
  | .ldVxI x, s, p => ifRange s (x.val + 1) (fun p => ∃ k : Reg, k ≤ x ∧ p = .reg k) p

/-- A row of R84's table: mask, match, and the instruction it selects with its fields. -/
structure OpcodeRow where
  mask : Word
  code : Word
  instr : Word → Instr

/-- The 35 rows of R84, in their order. -/
def opcodeRows : List OpcodeRow :=
  [⟨0xFFFF, 0x00E0, fun _ => .cls⟩, ⟨0xFFFF, 0x00EE, fun _ => .ret⟩, ⟨0xF000, 0x0000, fun op => .sys (opNNN op)⟩,
   ⟨0xF000, 0x1000, fun op => .jp (opNNN op)⟩, ⟨0xF000, 0x2000, fun op => .call (opNNN op)⟩,
   ⟨0xF000, 0x3000, fun op => .seImm (opX op) (opNN op)⟩, ⟨0xF000, 0x4000, fun op => .sneImm (opX op) (opNN op)⟩,
   ⟨0xF00F, 0x5000, fun op => .seReg (opX op) (opY op)⟩, ⟨0xF000, 0x6000, fun op => .ldImm (opX op) (opNN op)⟩,
   ⟨0xF000, 0x7000, fun op => .addImm (opX op) (opNN op)⟩] ++
  [⟨0xF00F, 0x8000, fun op => .ldReg (opX op) (opY op)⟩, ⟨0xF00F, 0x8001, fun op => .orReg (opX op) (opY op)⟩,
   ⟨0xF00F, 0x8002, fun op => .andReg (opX op) (opY op)⟩, ⟨0xF00F, 0x8003, fun op => .xorReg (opX op) (opY op)⟩,
   ⟨0xF00F, 0x8004, fun op => .addReg (opX op) (opY op)⟩, ⟨0xF00F, 0x8005, fun op => .subReg (opX op) (opY op)⟩,
   ⟨0xF00F, 0x8006, fun op => .shr (opX op) (opY op)⟩, ⟨0xF00F, 0x8007, fun op => .subnReg (opX op) (opY op)⟩,
   ⟨0xF00F, 0x800E, fun op => .shl (opX op) (opY op)⟩, ⟨0xF00F, 0x9000, fun op => .sneReg (opX op) (opY op)⟩] ++
  [⟨0xF000, 0xA000, fun op => .ldI (opNNN op)⟩, ⟨0xF000, 0xB000, fun op => .jpV0 (opNNN op)⟩,
   ⟨0xF000, 0xC000, fun op => .rnd (opX op) (opNN op)⟩,
   ⟨0xF000, 0xD000, fun op => .drw (opX op) (opY op) (opN op)⟩, ⟨0xF0FF, 0xE09E, fun op => .skp (opX op)⟩,
   ⟨0xF0FF, 0xE0A1, fun op => .sknp (opX op)⟩, ⟨0xF0FF, 0xF007, fun op => .ldVxDT (opX op)⟩,
   ⟨0xF0FF, 0xF00A, fun op => .ldVxK (opX op)⟩, ⟨0xF0FF, 0xF015, fun op => .ldDTVx (opX op)⟩,
   ⟨0xF0FF, 0xF018, fun op => .ldSTVx (opX op)⟩] ++
  [⟨0xF0FF, 0xF01E, fun op => .addI (opX op)⟩, ⟨0xF0FF, 0xF029, fun op => .ldF (opX op)⟩,
   ⟨0xF0FF, 0xF033, fun op => .ldB (opX op)⟩, ⟨0xF0FF, 0xF055, fun op => .ldIVx (opX op)⟩,
   ⟨0xF0FF, 0xF065, fun op => .ldVxI (opX op)⟩]

/-- R85's list of the unrecognized words, group by group. -/
def Unrecognized (op : Word) : Prop :=
  (op.toNat / 4096 = 0x5 ∧ op.toNat % 16 ≠ 0) ∨
  (op.toNat / 4096 = 0x9 ∧ op.toNat % 16 ≠ 0) ∨
  (op.toNat / 4096 = 0x8 ∧ op.toNat % 16 ∈ [0x8, 0x9, 0xA, 0xB, 0xC, 0xD, 0xF]) ∨
  (op.toNat / 4096 = 0xE ∧ op.toNat % 256 ∉ [0x9E, 0xA1]) ∨
  (op.toNat / 4096 = 0xF ∧ op.toNat % 256 ∉ [0x07, 0x0A, 0x15, 0x18, 0x1E, 0x29, 0x33, 0x55, 0x65])

/-- The PC and the held return addresses stay in R24's range. -/
def State.AddressesInRange (s : State) : Prop :=
  s.pc.toNat ≤ 0x10FE ∧ ∀ j : Fin 16, j.val < s.sp.val → s.stack[j.val].toNat ≤ 0x1000

/-- While a key is awaited, the next instruction fetched is an Fx0A (R174(e)). -/
def State.WaitsAtKeyWait (s : State) : Prop :=
  s.wait = .awaitingKey → ∃ op x, s.fetch = some op ∧ decode op = .ok (.ldVxK x)

/-- The same state but for the stack slots at or above SP (R26). -/
def State.SameButDeadSlots (s t : State) : Prop :=
  t = { s with stack := t.stack } ∧ ∀ j : Fin 16, j.val < s.sp.val → t.stack[j.val] = s.stack[j.val]

/-- The same state but for the sound timer. -/
def State.SameButST (s t : State) : Prop := t = { s with st := t.st }

/-- The same state but for VF. -/
def State.SameButVF (s t : State) : Prop := t = { s with v := t.v } ∧ ∀ r : Reg, r ≠ VF → t.reg r = s.reg r

/-- No key is released in any of the arrivals. -/
def State.NoReleaseArrives (s : State) : Prop := ∀ es ∈ s.arrivals, ∀ e ∈ es, ∀ k, e ≠ .keyUp k

end Sys2Proof.Machine

open Sys2Proof Sys2Proof.Machine

/-! ## Encoding -/

/-- Decoding the word of a well-formed instruction gives it back, every operand at every value (R82, R84). -/
def Obligations.DecodeOfEncodeIsIdentity : Prop :=
  ∀ i : Instr, i.wellFormed = true → decode (encode i) = .ok i

/-- Every word that decodes is the word of the well-formed instruction it decodes to, but for nothing: the fields SHR,
SHL and SYS carry and ignore are kept too (R84, R87). -/
def Obligations.EncodeOfDecodeIsIdentity : Prop :=
  ∀ (op : Word) (i : Instr), decode op = .ok i → i.wellFormed = true ∧ encode i = op

/-- R84: the decoder gives the first row of the table whose mask and match fit, and "unrecognized" when none does. -/
def Obligations.DecoderTakesFirstMatchingRow : Prop :=
  ∀ op : Word, decode op =
    match opcodeRows.find? (fun r => decide (op &&& r.mask = r.code)) with
    | some r => .ok (r.instr op)
    | none => .error (.unrecognized op)

/-- R85: the words that select no instruction are exactly those of its list. -/
def Obligations.UnrecognizedWordsAreTheListed : Prop :=
  ∀ op : Word, decode op = .error (.unrecognized op) ↔ Unrecognized op

/-- Words written out from R84's patterns decode to what they stand for (95_test_vectors.md T8, P1 to P4). -/
def Obligations.WordsOfThePatternsDecode : Prop :=
  decode 0x00E0 = .ok .cls ∧ decode 0x0FEE = .ok (.sys 0xFEE) ∧ decode 0x3AFF = .ok (.seImm 10 0xFF) ∧
  decode 0x812E = .ok (.shl 1 2) ∧ decode 0xBFFF = .ok (.jpV0 0xFFF) ∧ decode 0xD12F = .ok (.drw 1 2 15) ∧
  decode 0xE49E = .ok (.skp 4) ∧ decode 0xF265 = .ok (.ldVxI 2) ∧ decode 0x5121 = .error (.unrecognized 0x5121)

/-! ## The step -/

/-- R101 for an opcode that is recognized: the two bytes at PC, big-endian (R53), the PC advance, then the instruction's
execution. Around it stands what the model adds: the events due, the head of `arrivals`, happen in order before the fetch
and the head is dropped (log entry 3); they change nothing the fetch reads; and the report output is none until something
raises (log entry 1). -/
def Obligations.StepRunsDecodedInstruction : Prop :=
  ∀ (s : State) (hi lo : Byte) (op : Word) (i : Instr),
    s.mem.read s.pc.toNat = some hi → s.mem.read (s.pc.toNat + 1) = some lo →
    op.toNat = hi.toNat * 256 + lo.toNat → decode op = .ok i →
    step s = exec i s.arrive.advance ∧
    (s.arrivals = [] → s.arrive = s) ∧
    (∀ es rest, s.arrivals = es :: rest → s.arrive = ({ s with arrivals := rest } : State).events es) ∧
    s.Frame s.arrive (fun p => p ∈ [Part.dt, .st, .lastRel, .arrivals] ∨ ∃ k, p = .key k) ∧
    s.arrive.advance.pc.toNat = (s.pc.toNat + 2) % 65536 ∧ s.arrive.advance.report = .none ∧
    s.arrive.OnlyChanged s.arrive.advance [.pc, .report]

/-- 40_step_cycle.md: an unrecognized opcode is reported and changes nothing but PC = PC + 2. The report as a field, its
record in `reportLog` and the events before the step are the model's choices (log entries 1, 2 and 3). -/
def Obligations.UnrecognizedOpcodeOnlyAdvancesPc : Prop :=
  ∀ (s : State) (op : Word), s.fetch = some op → decode op = .error (.unrecognized op) →
    ∃ t, step s = .next t ∧ t.pc.toNat = (s.pc.toNat + 2) % 65536 ∧ t.report = .decodeError op ∧
      t.reportLog = .decodeError op :: s.reportLog ∧ s.arrive.OnlyChanged t [.pc, .report, .reportLog]

/-- R102, the spec's decision D5 (log entry 13): with PC >= 0xFFF every step, however many are taken, reports
MemoryBoundsError(PC) and changes nothing else, PC included. -/
def Obligations.FetchBeyondMemoryMakesNoProgress : Prop :=
  ∀ (s : State) (k : Nat), 0xFFF ≤ s.pc.toNat →
    ∃ t, Sys2Proof.core.run (k + 1) s = .next t ∧ t.pc = s.pc ∧ t.report = .memoryBounds s.pc ∧
      t.reportLog = List.replicate (k + 1) (.memoryBounds s.pc) ++ s.reportLog ∧
      (s.arrivals = [] → s.OnlyChanged t [.report, .reportLog])

/-- "every state has a step" (R107, R105): no instruction and no step stops the block. -/
def Obligations.EveryStateHasAStep : Prop :=
  (∀ (i : Instr) (s : State), ∃ t, exec i s = .next t) ∧ ∀ s : State, ∃ t, step s = .next t

/-- R15: a step changes only what the rule of the executed instruction says it changes, besides the fetch's PC advance
and the report output; the state compared is the one the events before the step leave (log entry 3). -/
def Obligations.StepChangesOnlyWhatTheRuleLists : Prop :=
  ∀ (s t : State) (op : Word) (i : Instr), s.fetch = some op → decode op = .ok i → step s = .next t →
    s.arrive.Frame t (fun p => p = .pc ∨ p = .report ∨ Writes i s.arrive.advance p)

/-- R105 and R207, the spec's decision D17 (log entry 14): a step gives at most one report, and one that gives a report
has changed nothing but the PC, by its fetch advance or not at all. The record `reportLog` is the model's (log entry 2). -/
def Obligations.ReportingStepChangesNothingElse : Prop :=
  ∀ s t : State, step s = .next t →
    (t.report = .none ∧ t.reportLog = s.reportLog) ∨
    (t.report ≠ .none ∧ t.reportLog = t.report :: s.reportLog ∧ (t.pc = s.pc ∨ t.pc = s.pc + 2) ∧
      s.arrive.OnlyChanged t [.pc, .report, .reportLog])

/-! ## Invariants -/

/-- Every step keeps memory in its canonical form (log entry 9). -/
def Obligations.StepKeepsMemoryCanonical : Prop :=
  ∀ s t : State, s.mem.wf = true → step s = .next t → t.mem.wf = true

/-- R24's bound, derived there: every step keeps the PC at most 0x10FE and every held return address at most 0x1000. -/
def Obligations.StepKeepsAddressesInRange : Prop :=
  ∀ s t : State, s.AddressesInRange → step s = .next t → t.AddressesInRange

/-- R174(e), derived there: WAIT is AwaitingKey only while the next instruction is the Fx0A that waits; every step keeps
this (D18, log entry 17). -/
def Obligations.StepKeepsWaitingAtKeyWait : Prop :=
  ∀ s t : State, s.WaitsAtKeyWait → step s = .next t → t.WaitsAtKeyWait

/-- The reset state meets the three invariants. -/
def Obligations.ResetMeetsTheInvariants : Prop :=
  State.reset.mem.wf = true ∧ State.reset.AddressesInRange ∧ State.reset.WaitsAtKeyWait

/-- Two canonical memories that read the same at every address are the same list (log entry 9). -/
def Obligations.MemoriesThatReadAlikeAreEqual : Prop :=
  ∀ m m' : Memory, m.wf = true → m'.wf = true → (∀ a, m.read a = m'.read a) → m = m'

/-! ## Reset and initialisation -/

/-- R40, R241: "memory zero-filled except fonts/ROM, registers zero, PC=0x200, stack empty, timers zero, framebuffer
cleared", with glyph 0 as the source gives it (R33). I, KEYS, LASTREL, WAIT are the spec's decision D9 (log entry 6) and
the stack slots D20 (log entry 7). -/
def Obligations.ResetStateIsTheSpecs : Prop :=
  (∀ x, State.reset.reg x = 0) ∧ State.reset.pc = 0x200 ∧ State.reset.sp.val = 0 ∧
  State.reset.dt = 0 ∧ State.reset.st = 0 ∧ (∀ y x, State.reset.fb.pixel y x = false) ∧
  (∀ a, a < 4096 → ¬(0x050 ≤ a ∧ a ≤ 0x09F) → State.reset.mem.read a = some 0) ∧
  State.reset.mem.readBytes 0x050 5 = some [0xF0, 0x90, 0x90, 0x90, 0xF0] ∧
  State.reset.i = 0 ∧ (∀ k, State.reset.isDown k = false) ∧ State.reset.lastRel = none ∧
  State.reset.wait = .idle ∧ (∀ j : Fin 16, State.reset.stack[j.val] = 0)

/-- R29: after initialisation MEM[0x050..0x09F] holds the 80 bytes of FONT, MEM[0x200..0x200+L-1] the L ROM bytes, and
every other byte 0x00, for 0 <= L <= 3584. Which bytes FONT's glyphs 1 to F are (log entry 8) is no part of this. -/
def Obligations.BootLoadsFontAndRom : Prop :=
  ∀ rom : List Byte, rom.length ≤ 3584 →
    ∃ t, boot rom = .next t ∧ fontBytes.length = 80 ∧
      ∀ a, a < 4096 → t.mem.read a = some (
        if 0x050 ≤ a ∧ a ≤ 0x09F then fontBytes.getD (a - 0x050) 0
        else if 0x200 ≤ a ∧ a < 0x200 + rom.length then rom.getD (a - 0x200) 0
        else 0)

/-- R243: with an empty ROM the initialisation sequence, created all zero and loaded with the font, gives the reset
state; and with any ROM that fits it gives that state but for memory, in canonical form (log entry 9). -/
def Obligations.BootGivesTheResetState : Prop :=
  boot [] = .next State.reset ∧
  ∀ (rom : List Byte) (t : State), boot rom = .next t → t = { State.reset with mem := t.mem } ∧ t.mem.wf = true

/-- R52, with the spec's decision D11 for a load that fails (log entry 19): it copies every byte to its place and changes
nothing else, or, exceeding 4096, it fails. -/
def Obligations.LoadCopiesAllOrFails : Prop :=
  ∀ (s : State) (offset : Nat) (bytes : List Byte),
    (offset + bytes.length ≤ 4096 → ∃ t, s.load offset bytes = .next t ∧
      (∀ k, k < bytes.length → t.mem.read (offset + k) = some (bytes.getD k 0)) ∧
      s.Frame t (fun p => ∃ a, offset ≤ a ∧ a < offset + bytes.length ∧ p = .byte a)) ∧
    (4096 < offset + bytes.length → s.load offset bytes = .fault (.loadBounds offset)) ∧
    (4096 - 0x200 < bytes.length → boot bytes = .fault (.loadBounds 0x200))

/-! ## Control transfer -/

/-- R112, R113, R115: 0nnn changes nothing; 1nnn loads PC with nnn; Bnnn loads it with nnn + V0, always V0, not reduced
to 12 bits. -/
def Obligations.JumpsSetThePc : Prop :=
  ∀ (s : State) (nnn : Addr12),
    (∃ t, exec (.sys nnn) s = .next t ∧ s.OnlyChanged t []) ∧
    (∃ t, exec (.jp nnn) s = .next t ∧ t.pc.toNat = nnn.toNat ∧ s.OnlyChanged t [.pc]) ∧
    (∃ t, exec (.jpV0 nnn) s = .next t ∧ t.pc.toNat = nnn.toNat + (s.reg 0).toNat ∧ s.OnlyChanged t [.pc])

/-- R116, R117, and 5xy0 and 9xy0 (41_flow.md): the four skips add 2 to PC, mod 65536, exactly when their unsigned
comparison holds. -/
def Obligations.SkipsCompareAndAdvance : Prop :=
  ∀ (s : State) (x y : Reg) (nn : Byte),
    (∃ t, exec (.seImm x nn) s = .next t ∧ s.OnlyChanged t [.pc] ∧
      t.pc.toNat = if (s.reg x).toNat = nn.toNat then (s.pc.toNat + 2) % 65536 else s.pc.toNat) ∧
    (∃ t, exec (.sneImm x nn) s = .next t ∧ s.OnlyChanged t [.pc] ∧
      t.pc.toNat = if (s.reg x).toNat ≠ nn.toNat then (s.pc.toNat + 2) % 65536 else s.pc.toNat) ∧
    (∃ t, exec (.seReg x y) s = .next t ∧ s.OnlyChanged t [.pc] ∧
      t.pc.toNat = if (s.reg x).toNat = (s.reg y).toNat then (s.pc.toNat + 2) % 65536 else s.pc.toNat) ∧
    (∃ t, exec (.sneReg x y) s = .next t ∧ s.OnlyChanged t [.pc] ∧
      t.pc.toNat = if (s.reg x).toNat ≠ (s.reg y).toNat then (s.pc.toNat + 2) % 65536 else s.pc.toNat)

/-- 2nnn CALL (41_flow.md): with room it stores PC in slot SP, raises SP and jumps; with 16 addresses held it reports
StackOverflow and does nothing, which is the spec's decision D3 (log entry 14). -/
def Obligations.CallPushesAndJumps : Prop :=
  ∀ (s : State) (nnn : Addr12),
    (∀ j : Fin 16, j.val = s.sp.val → ∃ t, exec (.call nnn) s = .next t ∧
      t.stack[j.val] = s.pc ∧ t.sp.val = s.sp.val + 1 ∧ t.pc.toNat = nnn.toNat ∧
      s.OnlyChanged t [.slot j, .sp, .pc]) ∧
    (s.sp.val = 16 → ∃ t, exec (.call nnn) s = .next t ∧ s.Reported t .stackOverflow)

/-- 00EE RET (41_flow.md): with an address held it lowers SP and loads PC with the newest one, the slot keeping its value;
with none it reports StackUnderflow and does nothing, which is the spec's decision D3 (log entry 14). -/
def Obligations.ReturnPopsThePc : Prop :=
  ∀ s : State,
    (∀ j : Fin 16, j.val + 1 = s.sp.val → ∃ t, exec .ret s = .next t ∧
      t.pc = s.stack[j.val] ∧ t.sp.val + 1 = s.sp.val ∧ s.OnlyChanged t [.sp, .pc]) ∧
    (s.sp.val = 0 → ∃ t, exec .ret s = .next t ∧ s.Reported t .stackUnderflow)

/-- The source's round trip (41_flow.md, 95_test_vectors.md E9): a call whose target holds 00EE, and then that return,
bring PC back to the address after the call and SP to its depth, whatever events fall between. -/
def Obligations.CallThenReturnComesBack : Prop :=
  ∀ (s : State) (op : Word) (nnn : Addr12), s.fetch = some op → decode op = .ok (.call nnn) → s.sp.val < 16 →
    s.mem.read nnn.toNat = some 0x00 → s.mem.read (nnn.toNat + 1) = some 0xEE →
    ∃ t, Sys2Proof.core.run 2 s = .next t ∧ t.pc.toNat = s.pc.toNat + 2 ∧ t.sp = s.sp ∧ t.report = .none ∧
      t.v = s.v ∧ t.mem = s.mem

/-! ## Registers -/

/-- R131, R132: 6xnn loads nn; 7xnn adds nn mod 256 and never touches VF as a flag. -/
def Obligations.ImmediateLoadAndAdd : Prop :=
  ∀ (s : State) (x : Reg) (nn : Byte),
    (∃ t, exec (.ldImm x nn) s = .next t ∧ t.reg x = nn ∧ s.OnlyChanged t [.reg x]) ∧
    (∃ t, exec (.addImm x nn) s = .next t ∧ (t.reg x).toNat = ((s.reg x).toNat + nn.toNat) % 256 ∧
      s.OnlyChanged t [.reg x])

/-- R133 to R136: copy, OR, AND and XOR, bit by bit, with no flag. -/
def Obligations.CopyAndLogicBitByBit : Prop :=
  ∀ (s : State) (x y : Reg),
    (∃ t, exec (.ldReg x y) s = .next t ∧ t.reg x = s.reg y ∧ s.OnlyChanged t [.reg x]) ∧
    (∃ t, exec (.orReg x y) s = .next t ∧ s.OnlyChanged t [.reg x] ∧
      ∀ j, (t.reg x).getLsbD j = ((s.reg x).getLsbD j || (s.reg y).getLsbD j)) ∧
    (∃ t, exec (.andReg x y) s = .next t ∧ s.OnlyChanged t [.reg x] ∧
      ∀ j, (t.reg x).getLsbD j = ((s.reg x).getLsbD j && (s.reg y).getLsbD j)) ∧
    (∃ t, exec (.xorReg x y) s = .next t ∧ s.OnlyChanged t [.reg x] ∧
      ∀ j, (t.reg x).getLsbD j = ((s.reg x).getLsbD j ^^ (s.reg y).getLsbD j))

/-- 8xy4 (42_alu.md): Vx is the sum mod 256 and VF the carry, written last; with x = 15 the carry stays, which rests on
the spec's decision D6 (log entry 10). -/
def Obligations.AddSetsCarryLast : Prop :=
  ∀ (s : State) (x y : Reg),
    ∃ t, exec (.addReg x y) s = .next t ∧ s.OnlyChanged t [.reg x, .reg VF] ∧
      (x ≠ VF → (t.reg x).toNat = ((s.reg x).toNat + (s.reg y).toNat) % 256) ∧
      (t.reg VF).toNat = if (s.reg x).toNat + (s.reg y).toNat > 255 then 1 else 0

/-- 8xy5 and 8xy7 (42_alu.md): the flag is no borrow, equality included, written first; the operands of the subtraction
are read after it, so that the results with x or y = 15 are those the rules spell out. That order is the spec's decision
D6 (log entry 10). -/
def Obligations.SubtractSetsNoBorrowFirst : Prop :=
  ∀ (s : State) (x y : Reg) (a b f g : Nat), (s.reg x).toNat = a → (s.reg y).toNat = b →
    f = (if a ≥ b then 1 else 0) → g = (if b ≥ a then 1 else 0) →
    (∃ t, exec (.subReg x y) s = .next t ∧ s.OnlyChanged t [.reg x, .reg VF] ∧
      (x ≠ VF → y ≠ VF → (t.reg x).toNat = (a + 256 - b) % 256 ∧ (t.reg VF).toNat = f) ∧
      (x = VF → y ≠ VF → (t.reg VF).toNat = (f + 256 - b) % 256) ∧
      (x ≠ VF → y = VF → (t.reg x).toNat = (a + 256 - f) % 256 ∧ (t.reg VF).toNat = f) ∧
      (x = VF → y = VF → (t.reg VF).toNat = 0)) ∧
    (∃ t, exec (.subnReg x y) s = .next t ∧ s.OnlyChanged t [.reg x, .reg VF] ∧
      (x ≠ VF → y ≠ VF → (t.reg x).toNat = (b + 256 - a) % 256 ∧ (t.reg VF).toNat = g) ∧
      (x = VF → y ≠ VF → (t.reg VF).toNat = (b + 256 - g) % 256) ∧
      (x ≠ VF → y = VF → (t.reg x).toNat = (g + 256 - a) % 256 ∧ (t.reg VF).toNat = g) ∧
      (x = VF → y = VF → (t.reg VF).toNat = 0))

/-- 8xy6 and 8xyE (42_alu.md): one place, logical, the bit shifted out in VF, written first; y is ignored (R87). With
x = 15 the shift reads the flag just written: the spec's decision D6 (log entry 10). -/
def Obligations.ShiftsPutTheLostBitInVF : Prop :=
  ∀ (s : State) (x y z : Reg),
    exec (.shr x y) s = exec (.shr x z) s ∧ exec (.shl x y) s = exec (.shl x z) s ∧
    (∃ t, exec (.shr x y) s = .next t ∧ s.OnlyChanged t [.reg x, .reg VF] ∧
      (x ≠ VF → (t.reg x).toNat = (s.reg x).toNat / 2 ∧ (t.reg VF).toNat = (s.reg x).toNat % 2) ∧
      (x = VF → (t.reg VF).toNat = 0)) ∧
    (∃ t, exec (.shl x y) s = .next t ∧ s.OnlyChanged t [.reg x, .reg VF] ∧
      (x ≠ VF → (t.reg x).toNat = (s.reg x).toNat * 2 % 256 ∧ (t.reg VF).toNat = (s.reg x).toNat / 128) ∧
      (x = VF → (t.reg VF).toNat = 2 * ((s.reg x).toNat / 128)))

/-- Cxnn (42_alu.md): for every value of the random byte, which is the model's free value (D8, log entry 4): the result is
that byte AND nn, has no 1 bit where nn has a 0 bit, is at most nn, and the next draw is another one. -/
def Obligations.RandomByteIsMasked : Prop :=
  ∀ (s : State) (x : Reg) (nn : Byte),
    ∃ t, exec (.rnd x nn) s = .next t ∧ s.OnlyChanged t [.reg x, .draws] ∧ t.draws = s.draws + 1 ∧
      (∀ j, (t.reg x).getLsbD j = ((Config.randomByte s.draws).getLsbD j && nn.getLsbD j)) ∧
      (t.reg x).toNat ≤ nn.toNat

/-- 10_state.md section 1: VF is written as a side effect by 8xy4 to 8xy7, 8xyE and Dxyn alone, and what they leave there
(x not 15), unless they end in a report, is 0 or 1; no other instruction writes VF unless its x field is 15. -/
def Obligations.OnlyFlagWritersWriteVF : Prop :=
  ∀ (i : Instr) (s t : State), exec i s = .next t → xField i ≠ some VF →
    (writesFlag i = false → t.reg VF = s.reg VF) ∧
    (writesFlag i = true → t.reportLog = s.reportLog → (t.reg VF).toNat ≤ 1)

/-- 10_state.md section 1: no instruction reads VF implicitly. From two states that differ in VF alone, an instruction
whose x and y are not 15 gives two states that differ in VF alone. -/
def Obligations.VFIsReadOnlyWhenNamed : Prop :=
  ∀ (i : Instr) (s t s' t' : State), xField i ≠ some VF → yField i ≠ some VF → s.SameButVF t →
    exec i s = .next s' → exec i t = .next t' → s'.SameButVF t'

/-! ## Index register and memory -/

/-- R150 to R152: I <- nnn; I <- (I + Vx) mod 65536, unchecked, no flag; I <- 0x050 + 5 Vx with the whole of Vx. -/
def Obligations.IndexRegisterUpdates : Prop :=
  ∀ (s : State) (x : Reg) (nnn : Addr12),
    (∃ t, exec (.ldI nnn) s = .next t ∧ t.i.toNat = nnn.toNat ∧ s.OnlyChanged t [.i]) ∧
    (∃ t, exec (.addI x) s = .next t ∧ t.i.toNat = (s.i.toNat + (s.reg x).toNat) % 65536 ∧ s.OnlyChanged t [.i]) ∧
    (∃ t, exec (.ldF x) s = .next t ∧ t.i.toNat = 0x050 + (s.reg x).toNat * 5 ∧ s.OnlyChanged t [.i])

/-- Fx33 (43_index_memory.md): the three bytes from I on are the decimal digits of Vx, hundreds first, and no other byte
and nothing else changes, when they all exist (the range check is the spec's decision D4, log entry 12). -/
def Obligations.DecimalDigitsAreStored : Prop :=
  ∀ (s : State) (x : Reg), s.RangeOk 3 →
    ∃ t h d u, exec (.ldB x) s = .next t ∧ t.mem.read s.i.toNat = some h ∧ t.mem.read (s.i.toNat + 1) = some d ∧
      t.mem.read (s.i.toNat + 2) = some u ∧ h.toNat ≤ 9 ∧ d.toNat ≤ 9 ∧ u.toNat ≤ 9 ∧
      100 * h.toNat + 10 * d.toNat + u.toNat = (s.reg x).toNat ∧
      s.Frame t (fun p => ∃ a, s.InBlock 3 a ∧ p = .byte a)

/-- Fx55 (43_index_memory.md): byte I + k is Vk for k = 0..x, VF included when x = 15, and nothing else changes, when the
bytes all exist (D4, log entry 12). -/
def Obligations.RegistersAreStored : Prop :=
  ∀ (s : State) (x : Reg), s.RangeOk (x.val + 1) →
    ∃ t, exec (.ldIVx x) s = .next t ∧
      (∀ k : Reg, k ≤ x → t.mem.read (s.i.toNat + k.val) = some (s.reg k)) ∧
      s.Frame t (fun p => ∃ a, s.InBlock (x.val + 1) a ∧ p = .byte a)

/-- Fx65 (43_index_memory.md): Vk is byte I + k for k = 0..x, and nothing else changes, when the bytes all exist (D4, log
entry 12). -/
def Obligations.RegistersAreLoaded : Prop :=
  ∀ (s : State) (x : Reg), s.RangeOk (x.val + 1) →
    ∃ t, exec (.ldVxI x) s = .next t ∧
      (∀ k : Reg, k ≤ x → s.mem.read (s.i.toNat + k.val) = some (t.reg k)) ∧
      s.Frame t (fun p => ∃ k : Reg, k ≤ x ∧ p = .reg k)

/-- R57, the spec's decision D4 (log entry 12): an access through I of which any byte lies beyond 0xFFF reports
MemoryBoundsError(I), and no byte, register or pixel changes, nor does PC. -/
def Obligations.OutOfRangeAccessIsSuppressed : Prop :=
  ∀ (s : State) (x y : Reg) (n : Nibble),
    (¬ s.RangeOk 3 → ∃ t, exec (.ldB x) s = .next t ∧ s.Reported t (.memoryBounds s.i)) ∧
    (¬ s.RangeOk (x.val + 1) →
      (∃ t, exec (.ldIVx x) s = .next t ∧ s.Reported t (.memoryBounds s.i)) ∧
      (∃ t, exec (.ldVxI x) s = .next t ∧ s.Reported t (.memoryBounds s.i))) ∧
    (¬ s.RangeOk n.toNat → ∃ t, exec (.drw x y n) s = .next t ∧ s.Reported t (.memoryBounds s.i))

/-- Storing V0..Vx and loading the block again, whatever the registers hold by then, restores V0..Vx. -/
def Obligations.StoreThenLoadRestoresRegisters : Prop :=
  ∀ (s t u w : State) (x k : Reg), s.RangeOk (x.val + 1) → exec (.ldIVx x) s = .next t →
    u.mem = t.mem → u.i = s.i → exec (.ldVxI x) u = .next w → k ≤ x → w.reg k = s.reg k

/-- 20_memory.md section 6, derived there: a store is seen by the next fetch. With the PC at the first of two bytes or
more that Fx55 has stored, the next opcode is V0 :: V1. -/
def Obligations.StoreIsSeenByTheNextFetch : Prop :=
  ∀ (s t : State) (x : Reg), s.RangeOk (x.val + 1) → 1 ≤ x.val → exec (.ldIVx x) s = .next t → s.pc = s.i →
    ∃ op, t.fetch = some op ∧ op.toNat = (s.reg 0).toNat * 256 + (s.reg 1).toNat

/-! ## Display -/

/-- R161: every pixel off, nothing else changed. -/
def Obligations.ClearTurnsEveryPixelOff : Prop :=
  ∀ s : State, ∃ t, exec .cls s = .next t ∧ (∀ y x, t.fb.pixel y x = false) ∧
    s.Frame t (fun p => ∃ y x, p = .pixel y x)

/-- Dxyn (44_display.md): a pixel is inverted exactly if a set sprite bit falls on it, with wrap-around, and VF is 1
exactly if one of those was on; nothing else changes. n = 0 draws nothing whatever I holds and leaves VF = 0, which the spec
derives (log entry 27). Which bit is leftmost is the spec's decision D14 (log entry 15), the range check D4 (log entry 12). -/
def Obligations.DrawInvertsCoveredPixels : Prop :=
  ∀ (s : State) (x y : Reg) (n : Nibble), s.RangeOk n.toNat →
    ∃ t, exec (.drw x y n) s = .next t ∧
      (∀ py px, (t.fb.pixel py px ≠ s.fb.pixel py px) ↔ s.SpriteCovers x y n py px) ∧
      ((t.reg VF).toNat = 1 ↔ ∃ py px, s.SpriteCovers x y n py px ∧ s.fb.pixel py px = true) ∧
      (t.reg VF).toNat ≤ 1 ∧
      s.Frame t (fun p => p = .reg VF ∨ ∃ py px, s.SpriteCovers x y n py px ∧ p = .pixel py px)

/-- Drawing a sprite twice at the same place restores the framebuffer (44_display.md, R163(h)); the second draw collides
exactly if a set bit fell on a pixel that was off before the first (log entry 26 on R163(h)'s own words). -/
def Obligations.DrawingTwiceRestoresTheFramebuffer : Prop :=
  ∀ (s t u w : State) (x y : Reg) (n : Nibble), s.RangeOk n.toNat → exec (.drw x y n) s = .next t →
    u.fb = t.fb → u.mem = s.mem → u.i = s.i → u.reg x = s.reg x → u.reg y = s.reg y →
    exec (.drw x y n) u = .next w →
    w.fb = s.fb ∧ ((w.reg VF).toNat = 1 ↔ ∃ py px, s.SpriteCovers x y n py px ∧ s.fb.pixel py px = false)

/-! ## Keypad -/

/-- Ex9E and ExA1 (45_keypad.md): skip exactly when key Vx mod 16 is down, up; the low four bits are the spec's decision
D7 (log entry 11). -/
def Obligations.KeySkipsTestOneKey : Prop :=
  ∀ (s : State) (x : Reg) (k : Key), k.val = (s.reg x).toNat % 16 →
    (∃ t, exec (.skp x) s = .next t ∧ s.OnlyChanged t [.pc] ∧
      t.pc.toNat = if s.isDown k = true then (s.pc.toNat + 2) % 65536 else s.pc.toNat) ∧
    (∃ t, exec (.sknp x) s = .next t ∧ s.OnlyChanged t [.pc] ∧
      t.pc.toNat = if s.isDown k = false then (s.pc.toNat + 2) % 65536 else s.pc.toNat)

/-- Fx0A (45_keypad.md): the entry waits, discards a stale release and rewinds PC; an empty slot rewinds PC; a pending
release is consumed, stored and ends the wait. That the entry rewinds is the spec's decision D18 (log entry 17). -/
def Obligations.KeyWaitStateMachine : Prop :=
  ∀ (s : State) (x : Reg),
    (s.wait = .idle → ∃ t, exec (.ldVxK x) s = .next t ∧ t.wait = .awaitingKey ∧ t.lastRel = none ∧
      t.pc.toNat = (s.pc.toNat + 65534) % 65536 ∧ s.OnlyChanged t [.wait, .lastRel, .pc]) ∧
    (s.wait = .awaitingKey → s.lastRel = none → ∃ t, exec (.ldVxK x) s = .next t ∧
      t.pc.toNat = (s.pc.toNat + 65534) % 65536 ∧ s.OnlyChanged t [.pc]) ∧
    (∀ k, s.wait = .awaitingKey → s.lastRel = some k → ∃ t, exec (.ldVxK x) s = .next t ∧
      (t.reg x).toNat = k.val ∧ t.wait = .idle ∧ t.lastRel = none ∧ s.OnlyChanged t [.reg x, .wait, .lastRel])

/-- The source's test of Fx0A (95_test_vectors.md E8): while no release arrives, PC and Vx are unchanged across any
number of steps, and each reports none; ticks and key presses go on. -/
def Obligations.KeyWaitHoldsWithoutRelease : Prop :=
  ∀ (s : State) (op : Word) (x : Reg) (k : Nat), s.wait = .awaitingKey → s.lastRel = none → s.NoReleaseArrives →
    s.fetch = some op → decode op = .ok (.ldVxK x) →
    ∃ t, Sys2Proof.core.run k s = .next t ∧ t.pc = s.pc ∧ t.v = s.v ∧ t.wait = .awaitingKey ∧ t.lastRel = none ∧
      t.reportLog = s.reportLog

/-! ## Timers, events, agents -/

/-- R181 to R183: Fx07 reads DT; Fx15 writes it; Fx18 writes ST, and `sound_on` is then 1 exactly if Vx is not 0. -/
def Obligations.TimerReadsAndWrites : Prop :=
  ∀ (s : State) (x : Reg),
    (∃ t, exec (.ldVxDT x) s = .next t ∧ t.reg x = s.dt ∧ s.OnlyChanged t [.reg x]) ∧
    (∃ t, exec (.ldDTVx x) s = .next t ∧ t.dt = s.reg x ∧ s.OnlyChanged t [.dt]) ∧
    (∃ t, exec (.ldSTVx x) s = .next t ∧ t.st = s.reg x ∧ s.OnlyChanged t [.st] ∧
      (t.soundOn = true ↔ (s.reg x).toNat ≠ 0))

/-- R217: a tick lowers both timers by 1, clamped at 0, and changes nothing else. -/
def Obligations.TickLowersBothTimers : Prop :=
  ∀ s : State,
    (s.event .tick).dt.toNat = (if s.dt.toNat > 0 then s.dt.toNat - 1 else 0) ∧
    (s.event .tick).st.toNat = (if s.st.toNat > 0 then s.st.toNat - 1 else 0) ∧
    s.OnlyChanged (s.event .tick) [.dt, .st]

/-- R219, R220: a press sets the key's flag; a release clears it and publishes the key, whether or not anything waits;
nothing else changes. -/
def Obligations.KeyEventsSetFlagAndSlot : Prop :=
  ∀ (s : State) (k : Key),
    ((s.event (.keyDown k)).isDown k = true ∧ s.OnlyChanged (s.event (.keyDown k)) [.key k]) ∧
    ((s.event (.keyUp k)).isDown k = false ∧ (s.event (.keyUp k)).lastRel = some k ∧
      s.OnlyChanged (s.event (.keyUp k)) [.key k, .lastRel])

/-- 46_timers.md: the delay timer read after any events is what it was minus the ticks among them, floored at 0; key
events and reads do not count. -/
def Obligations.DelayTimerCountsTicks : Prop :=
  ∀ (s : State) (es : List Event),
    (s.events es).dt.toNat = s.dt.toNat - (es.filter (fun e => decide (e = .tick))).length ∧
    (s.events es).st.toNat = s.st.toNat - (es.filter (fun e => decide (e = .tick))).length

/-- 10_state.md section 8, who writes what: KEYS only key events; LASTREL the key-up event and Fx0A; WAIT Fx0A; the timers
Fx15, Fx18 and the tick; the framebuffer 00E0 and Dxyn; CPU state and memory the step alone, but for the load of memory. -/
def Obligations.OwnersAloneWriteTheirState : Prop :=
  (∀ (i : Instr) (s t : State), exec i s = .next t →
    t.keys = s.keys ∧
    ((∀ x, i ≠ .ldVxK x) → t.lastRel = s.lastRel ∧ t.wait = s.wait) ∧
    ((∀ x, i ≠ .ldDTVx x) → t.dt = s.dt) ∧ ((∀ x, i ≠ .ldSTVx x) → t.st = s.st) ∧
    (i ≠ .cls → (∀ x y n, i ≠ .drw x y n) → t.fb = s.fb)) ∧
  (∀ (e : Event) (s : State),
    (s.event e).v = s.v ∧ (s.event e).i = s.i ∧ (s.event e).pc = s.pc ∧ (s.event e).stack = s.stack ∧
    (s.event e).sp = s.sp ∧ (s.event e).mem = s.mem ∧ (s.event e).fb = s.fb ∧ (s.event e).wait = s.wait ∧
    (e ≠ .tick → (s.event e).dt = s.dt ∧ (s.event e).st = s.st) ∧
    ((∀ k, e ≠ .keyUp k) → (s.event e).lastRel = s.lastRel ∧
      ((∀ k, e ≠ .keyDown k) → (s.event e).keys = s.keys))) ∧
  (∀ (s t : State) (offset : Nat) (bytes : List Byte), s.load offset bytes = .next t → t = { s with mem := t.mem })

/-- 10_state.md, R26's consequence, derived there (D20, log entry 7): no step lets the slots at or above SP be seen. -/
def Obligations.DeadStackSlotsAreUnobservable : Prop :=
  ∀ s t s' t' : State, s.SameButDeadSlots t → step s = .next s' → step t = .next t' → s'.SameButDeadSlots t'

/-- 10_state.md R34: ST is read by no instruction. From two states that differ in ST alone, a step gives two states that
differ in ST alone. -/
def Obligations.SoundTimerIsReadByNoInstruction : Prop :=
  ∀ s t s' t' : State, s.SameButST t → step s = .next s' → step t = .next t' → s'.SameButST t'

/-! ## The order of events -/

/-- 60_exceptions.md section 3: "each event sees the state left by the one before it". The model's form of it (log entry 3):
the head of `arrivals` happens before the step and is dropped, and its events act one after another in the order listed.
So the last release decides LASTREL, and the last press or release of a key decides its flag (45_keypad.md, T92). -/
def Obligations.EventsActInOrderBeforeTheStep : Prop :=
  ∀ (s : State) (es es' : List Event) (rest : List (List Event)) (k : Key),
    (s.arrivals = [] → s.arrive = s) ∧
    (s.arrivals = es :: rest → s.arrive = ({ s with arrivals := rest } : State).events es) ∧
    s.events [] = s ∧ (∀ e, s.events [e] = s.event e) ∧ s.events (es ++ es') = (s.events es).events es' ∧
    ((∀ j, Event.keyUp j ∉ es') →
      (s.events es').lastRel = s.lastRel ∧ (s.events (es ++ .keyUp k :: es')).lastRel = some k) ∧
    (Event.keyUp k ∉ es' → Event.keyDown k ∉ es' →
      (s.events es').isDown k = s.isDown k ∧ (s.events (es ++ .keyUp k :: es')).isDown k = false ∧
      (s.events (es ++ .keyDown k :: es')).isDown k = true)

/-- 45_keypad.md, 95_test_vectors.md E8 and T92: once a release is delivered, exactly the next step consumes it: a waiting
Fx0A stores the last key released before the step, whatever other events fall around it, empties the slot, stops waiting
and lets PC advance. (The events before the step are the model's `arrivals`, log entry 3.) -/
def Obligations.KeyWaitTakesTheLastRelease : Prop :=
  ∀ (s : State) (op : Word) (x : Reg) (k : Key) (es es' : List Event) (rest : List (List Event)),
    s.wait = .awaitingKey → s.fetch = some op → decode op = .ok (.ldVxK x) →
    s.arrivals = (es ++ .keyUp k :: es') :: rest → (∀ j, Event.keyUp j ∉ es') →
    ∃ t, step s = .next t ∧ (t.reg x).toNat = k.val ∧ t.wait = .idle ∧ t.lastRel = none ∧
      t.pc.toNat = s.pc.toNat + 2 ∧ t.report = .none ∧ t.arrivals = rest ∧
      s.arrive.OnlyChanged t [.reg x, .wait, .lastRel, .pc, .report]
end

