-- ==== Sys2Proof/Laws/Decode.lean ====
section
/-! SUPPORT. Words and their fields as numbers, the fields of an encoded word, the word of its fields, and the bits a
row's mask keeps (30_encoding.md R81, R82). Every lemma about fields goes through these numbers and omega. -/

namespace Sys2Proof

theorem toNat_append_add {m n : Nat} (x : BitVec m) (y : BitVec n) :
    (x ++ y).toNat = x.toNat * 2 ^ n + y.toNat := by
  rw [BitVec.toNat_append, ← Nat.shiftLeft_add_eq_or_of_lt y.isLt, Nat.shiftLeft_eq]

theorem toNat_ofFin_reg (x : Reg) : (BitVec.ofFin x : Nibble).toNat = x.val := rfl

/-! ## Encoded words as numbers -/

theorem toNat_encAddr (g : Nibble) (nnn : Addr12) : (encAddr g nnn).toNat = g.toNat * 4096 + nnn.toNat :=
  toNat_append_add g nnn

theorem toNat_encRegImm (g : Nibble) (x : Reg) (nn : Byte) :
    (encRegImm g x nn).toNat = g.toNat * 4096 + x.val * 256 + nn.toNat := by
  refine (toNat_append_add g ((BitVec.ofFin x : Nibble) ++ nn)).trans ?_
  rw [toNat_append_add, toNat_ofFin_reg x]; omega

theorem toNat_encRegReg (g : Nibble) (x y : Reg) (n : Nibble) :
    (encRegReg g x y n).toNat = g.toNat * 4096 + x.val * 256 + y.val * 16 + n.toNat := by
  refine (toNat_append_add g ((BitVec.ofFin x : Nibble) ++ ((BitVec.ofFin y : Nibble) ++ n))).trans ?_
  rw [toNat_append_add, toNat_append_add, toNat_ofFin_reg x, toNat_ofFin_reg y]; omega

theorem toNat_wordOfBytes (hi lo : Byte) : (wordOfBytes hi lo).toNat = hi.toNat * 256 + lo.toNat :=
  toNat_append_add hi lo

/-! ## Fields as numbers (R81) -/

theorem toNat_opGroup (op : Word) : (opGroup op).toNat = op.toNat / 4096 := by
  have := op.isLt
  simp [opGroup, BitVec.extractLsb'_toNat, Nat.shiftRight_eq_div_pow]; omega

theorem val_opX (op : Word) : (opX op).val = op.toNat / 256 % 16 := by
  simp [opX, Nat.shiftRight_eq_div_pow]

theorem val_opY (op : Word) : (opY op).val = op.toNat / 16 % 16 := by
  simp [opY, Nat.shiftRight_eq_div_pow]

theorem toNat_opN (op : Word) : (opN op).toNat = op.toNat % 16 := by
  simp [opN, BitVec.extractLsb'_toNat]

theorem toNat_opNN (op : Word) : (opNN op).toNat = op.toNat % 256 := by
  simp [opNN, BitVec.extractLsb'_toNat]

theorem toNat_opNNN (op : Word) : (opNNN op).toNat = op.toNat % 4096 := by
  simp [opNNN, BitVec.extractLsb'_toNat]

/-! ## Fields of an encoded word -/

@[simp] theorem opGroup_encAddr (g : Nibble) (nnn : Addr12) : opGroup (encAddr g nnn) = g := by
  have := nnn.isLt
  apply BitVec.eq_of_toNat_eq; rw [toNat_opGroup, toNat_encAddr]; omega

@[simp] theorem opNNN_encAddr (g : Nibble) (nnn : Addr12) : opNNN (encAddr g nnn) = nnn := by
  have := nnn.isLt
  apply BitVec.eq_of_toNat_eq; rw [toNat_opNNN, toNat_encAddr]; omega

@[simp] theorem opGroup_encRegImm (g : Nibble) (x : Reg) (nn : Byte) : opGroup (encRegImm g x nn) = g := by
  have := nn.isLt; have := x.isLt
  apply BitVec.eq_of_toNat_eq; rw [toNat_opGroup, toNat_encRegImm]; omega

@[simp] theorem opX_encRegImm (g : Nibble) (x : Reg) (nn : Byte) : opX (encRegImm g x nn) = x := by
  have := nn.isLt; have := x.isLt
  apply Fin.ext; rw [val_opX, toNat_encRegImm]; omega

@[simp] theorem opNN_encRegImm (g : Nibble) (x : Reg) (nn : Byte) : opNN (encRegImm g x nn) = nn := by
  have := nn.isLt
  apply BitVec.eq_of_toNat_eq; rw [toNat_opNN, toNat_encRegImm]; omega

@[simp] theorem opGroup_encRegReg (g : Nibble) (x y : Reg) (n : Nibble) : opGroup (encRegReg g x y n) = g := by
  have := n.isLt; have := x.isLt; have := y.isLt
  apply BitVec.eq_of_toNat_eq; rw [toNat_opGroup, toNat_encRegReg]; omega

@[simp] theorem opX_encRegReg (g : Nibble) (x y : Reg) (n : Nibble) : opX (encRegReg g x y n) = x := by
  have := n.isLt; have := x.isLt; have := y.isLt
  apply Fin.ext; rw [val_opX, toNat_encRegReg]; omega

@[simp] theorem opY_encRegReg (g : Nibble) (x y : Reg) (n : Nibble) : opY (encRegReg g x y n) = y := by
  have := n.isLt; have := x.isLt; have := y.isLt
  apply Fin.ext; rw [val_opY, toNat_encRegReg]; omega

@[simp] theorem opN_encRegReg (g : Nibble) (x y : Reg) (n : Nibble) : opN (encRegReg g x y n) = n := by
  have := n.isLt
  apply BitVec.eq_of_toNat_eq; rw [toNat_opN, toNat_encRegReg]; omega

/-! ## The word of its fields -/

theorem encAddr_fields (op : Word) : encAddr (opGroup op) (opNNN op) = op := by
  apply BitVec.eq_of_toNat_eq; rw [toNat_encAddr, toNat_opGroup, toNat_opNNN]; omega

theorem encRegImm_fields (op : Word) : encRegImm (opGroup op) (opX op) (opNN op) = op := by
  apply BitVec.eq_of_toNat_eq; rw [toNat_encRegImm, toNat_opGroup, val_opX, toNat_opNN]; omega

theorem encRegReg_fields (op : Word) : encRegReg (opGroup op) (opX op) (opY op) (opN op) = op := by
  apply BitVec.eq_of_toNat_eq; rw [toNat_encRegReg, toNat_opGroup, val_opX, val_opY, toNat_opN]; omega

/-- A word is its two bytes (R53). -/
theorem wordOfBytes_bytes (op : Word) : wordOfBytes (highByte op) (lowByte op) = op := by
  have := op.isLt
  apply BitVec.eq_of_toNat_eq
  rw [toNat_wordOfBytes]
  simp [highByte, lowByte, BitVec.extractLsb'_toNat, Nat.shiftRight_eq_div_pow]; omega

/-! ## The bits a mask keeps (R84) -/

theorem nibble_and_ones (a : Nibble) : a &&& 0xF#4 = a := by revert a; decide

theorem nibble_and_zero (a : Nibble) : a &&& 0x0#4 = 0x0#4 := by revert a; decide

theorem byte_and_ones (a : Byte) : a &&& 0xFF#8 = a := by revert a; decide

theorem byte_and_zero (a : Byte) : a &&& 0x00#8 = 0x00#8 := by simp

/-- Masks 0xF00F, 0xF0FF and 0xF000 nibble by nibble. -/
theorem encRegReg_and (g : Nibble) (x y : Reg) (n : Nibble) :
    encRegReg g x y n &&& 0xF00F = encRegReg g 0 0 n := by
  change (g ++ ((BitVec.ofFin x : Nibble) ++ ((BitVec.ofFin y : Nibble) ++ n))) &&&
    (0xF#4 ++ (0x0#4 ++ (0x0#4 ++ 0xF#4))) = g ++ (0x0#4 ++ (0x0#4 ++ n))
  rw [BitVec.and_append, BitVec.and_append, BitVec.and_append, nibble_and_ones, nibble_and_zero, nibble_and_zero,
    nibble_and_ones]

theorem encRegReg_and_group (g : Nibble) (x y : Reg) (n : Nibble) :
    encRegReg g x y n &&& 0xF000 = encRegReg g 0 0 0 := by
  change (g ++ ((BitVec.ofFin x : Nibble) ++ ((BitVec.ofFin y : Nibble) ++ n))) &&&
    (0xF#4 ++ (0x0#4 ++ (0x0#4 ++ 0x0#4))) = g ++ (0x0#4 ++ (0x0#4 ++ 0x0#4))
  rw [BitVec.and_append, BitVec.and_append, BitVec.and_append, nibble_and_ones, nibble_and_zero, nibble_and_zero,
    nibble_and_zero]

theorem encRegImm_and (g : Nibble) (x : Reg) (nn : Byte) :
    encRegImm g x nn &&& 0xF0FF = encRegImm g 0 nn := by
  change (g ++ ((BitVec.ofFin x : Nibble) ++ nn)) &&& (0xF#4 ++ (0x0#4 ++ 0xFF#8)) = _
  rw [BitVec.and_append, BitVec.and_append, nibble_and_ones, nibble_and_zero, byte_and_ones]
  rfl

theorem encRegImm_and_group (g : Nibble) (x : Reg) (nn : Byte) :
    encRegImm g x nn &&& 0xF000 = encRegImm g 0 0 := by
  change (g ++ ((BitVec.ofFin x : Nibble) ++ nn)) &&& (0xF#4 ++ (0x0#4 ++ 0x00#8)) = _
  rw [BitVec.and_append, BitVec.and_append, nibble_and_ones, nibble_and_zero, byte_and_zero]
  rfl

theorem encAddr_and (g : Nibble) (nnn : Addr12) : encAddr g nnn &&& 0xF000 = encAddr g 0 := by
  change (g ++ nnn) &&& (0xF#4 ++ 0x000#12) = _
  rw [BitVec.and_append, nibble_and_ones, BitVec.and_zero]
  rfl

end Sys2Proof
end

