-- ==== Sys2Proof/Laws/Memory.lean ====
section
/-! SUPPORT. Memory: read after write, and the canonical form is kept by every operation. -/

namespace Sys2Proof.Machine

/-! ## One byte -/

@[simp] theorem Memory.get_drop (m : Memory) (a x : Nat) :
    Memory.get (Memory.drop m a) x = if x = a then Memory.unlisted a else Memory.get m x := by
  induction m with
  | nil => by_cases h : x = a <;> simp [Memory.drop, Memory.get, h]
  | cons c m ih =>
    obtain ⟨k, b⟩ := c
    by_cases hk : k = a <;> by_cases hx : x = a <;> by_cases hkx : k = x <;>
      simp_all [Memory.drop, Memory.get]

theorem Memory.get_insert (m : Memory) (a x : Nat) (b : Byte) (hm : ∀ c ∈ m, c.1 ≠ a) :
    Memory.get (Memory.insert m a b) x = if x = a then b else Memory.get m x := by
  induction m with
  | nil =>
    by_cases h : x = a
    · simp [Memory.insert, Memory.get, h]
    · simp [Memory.insert, Memory.get, h, Ne.symm h]
  | cons c m ih =>
    obtain ⟨k, c⟩ := c
    have hk : k ≠ a := hm (k, c) (by simp)
    have ih := ih fun c hc => hm c (by simp [hc])
    unfold Memory.insert
    by_cases hx : x = a
    · subst hx; split <;> simp [Memory.get, ih, hk]
    · split <;> simp [Memory.get, ih, hx, Ne.symm hx]

theorem Memory.ne_of_mem_drop {m : Memory} {a : Nat} {c : Host.Cell} (h : c ∈ Memory.drop m a) : c.1 ≠ a := by
  induction m with
  | nil => simp [Memory.drop] at h
  | cons d m ih =>
    obtain ⟨k, b⟩ := d
    by_cases hk : k = a
    · exact ih (by simpa [Memory.drop, hk] using h)
    · simp only [Memory.drop, hk, if_false, List.mem_cons] at h
      obtain rfl | h := h
      · exact hk
      · exact ih h

/-- A read after a write gives the byte written there, and every other address reads as before (R56, R59). -/
@[simp] theorem Memory.get_put (m : Memory) (a x : Nat) (b : Byte) :
    Memory.get (Memory.put m a b) x = if x = a then b else Memory.get m x := by
  unfold Memory.put
  split
  · next h => simp [h]
  · rw [Memory.get_insert _ _ _ _ fun c hc => Memory.ne_of_mem_drop hc]
    by_cases hx : x = a <;> simp [hx]

/-! ## The canonical form -/

theorem Memory.wfFrom_cons {lo k : Nat} {b : Byte} {m : Memory} :
    Memory.wfFrom lo ((k, b) :: m) = true ↔
      lo ≤ k ∧ k < Config.memSize ∧ b ≠ Memory.unlisted k ∧ Memory.wfFrom (k + 1) m = true := by
  simp [Memory.wfFrom, and_assoc]

theorem Memory.wfFrom_mono {m : Memory} {lo lo' : Nat} (h : Memory.wfFrom lo m = true) (hl : lo' ≤ lo) :
    Memory.wfFrom lo' m = true := by
  cases m with
  | nil => rfl
  | cons c m =>
    obtain ⟨k, b⟩ := c
    obtain ⟨h1, h2, h3, h4⟩ := Memory.wfFrom_cons.1 h
    exact Memory.wfFrom_cons.2 ⟨le_trans hl h1, h2, h3, h4⟩

theorem Memory.wfFrom_drop {m : Memory} {lo : Nat} (a : Nat) (h : Memory.wfFrom lo m = true) :
    Memory.wfFrom lo (Memory.drop m a) = true := by
  induction m generalizing lo with
  | nil => rfl
  | cons c m ih =>
    obtain ⟨k, b⟩ := c
    obtain ⟨h1, h2, h3, h4⟩ := Memory.wfFrom_cons.1 h
    unfold Memory.drop
    split
    · exact Memory.wfFrom_mono (ih h4) (by omega)
    · exact Memory.wfFrom_cons.2 ⟨h1, h2, h3, ih h4⟩

theorem Memory.wfFrom_insert {m : Memory} {lo a : Nat} {b : Byte} (h : Memory.wfFrom lo m = true)
    (hm : ∀ c ∈ m, c.1 ≠ a) (hlo : lo ≤ a) (ha : a < Config.memSize) (hb : b ≠ Memory.unlisted a) :
    Memory.wfFrom lo (Memory.insert m a b) = true := by
  induction m generalizing lo with
  | nil => exact Memory.wfFrom_cons.2 ⟨hlo, ha, hb, rfl⟩
  | cons c m ih =>
    obtain ⟨k, c⟩ := c
    have hk : k ≠ a := hm (k, c) (by simp)
    obtain ⟨h1, h2, h3, h4⟩ := Memory.wfFrom_cons.1 h
    unfold Memory.insert
    split
    · next hak => exact Memory.wfFrom_cons.2 ⟨hlo, ha, hb, Memory.wfFrom_cons.2 ⟨hak, h2, h3, h4⟩⟩
    · exact Memory.wfFrom_cons.2 ⟨h1, h2, h3, ih h4 (fun c hc => hm c (by simp [hc])) (by omega)⟩

/-- Storing a byte below 4096 keeps the canonical form. -/
theorem Memory.wf_put {m : Memory} {a : Nat} {b : Byte} (h : m.wf = true) (ha : a < Config.memSize) :
    (Memory.put m a b).wf = true := by
  unfold Memory.put
  split
  · exact Memory.wfFrom_drop a h
  · next hb => exact Memory.wfFrom_insert (Memory.wfFrom_drop a h) (fun c hc => Memory.ne_of_mem_drop hc) (by omega) ha hb

/-! ## The checked primitives -/

/-- MemRead(addr, 1): the byte inside 0x000..0xFFF, nothing outside (R55). -/
theorem Memory.read_eq (m : Memory) (a : Nat) :
    Memory.read m a = if a < Config.memSize then some (Memory.get m a) else none := rfl

theorem Memory.write_eq (m : Memory) (a : Nat) (b : Byte) :
    Memory.write m a b = if a < Config.memSize then some (Memory.put m a b) else none := rfl

theorem Memory.readWord_eq (m : Memory) (a : Nat) :
    Memory.readWord m a =
      if a + 1 < Config.memSize then some (Memory.get m a ++ Memory.get m (a + 1)) else none := by
  unfold Memory.readWord
  by_cases h : a + 1 < Config.memSize
  · simp [Memory.read_eq, h, show a < Config.memSize by omega]
  · by_cases h' : a < Config.memSize <;> simp [Memory.read_eq, h, h']

/-- A block read: the n bytes from a up when they all lie below 4096, else nothing (R57, R58). -/
theorem Memory.readBytes_eq (m : Memory) (a n : Nat) :
    Memory.readBytes m a n =
      if n = 0 ∨ a + n ≤ Config.memSize then some ((List.range' a n).map (Memory.get m)) else none := by
  induction n generalizing a with
  | zero => simp [Memory.readBytes]
  | succ n ih =>
    rw [Memory.readBytes, Memory.read_eq, ih]
    by_cases h : a + (n + 1) ≤ Config.memSize
    · simp [h, show a < Config.memSize by omega, show n = 0 ∨ a + 1 + n ≤ Config.memSize by omega, List.range'_succ]
    · by_cases h1 : a < Config.memSize
      · simp [h, h1, show ¬(n = 0 ∨ a + 1 + n ≤ Config.memSize) by omega]
      · simp [h, h1]

/-- A block write lands whole exactly when every byte lies below 4096; otherwise nothing is written (R57). -/
theorem Memory.writeBytes_isSome (m : Memory) (a : Nat) (bs : List Byte) :
    (Memory.writeBytes m a bs).isSome = true ↔ bs = [] ∨ a + bs.length ≤ Config.memSize := by
  induction bs generalizing m a with
  | nil => simp [Memory.writeBytes]
  | cons b bs ih =>
    rw [Memory.writeBytes, Memory.write_eq]
    by_cases h : a < Config.memSize
    · simp only [h, if_true, ih, List.length_cons]
      constructor
      · rintro (rfl | h')
        · right; simp only [List.length_nil]; omega
        · right; omega
      · rintro (h' | h')
        · simp at h'
        · right; omega
    · simp [h]; omega

/-- After a block write, the bytes written read back and every other address reads as before (R56, R57). -/
theorem Memory.get_writeBytes {m m' : Memory} {a : Nat} {bs : List Byte}
    (h : Memory.writeBytes m a bs = some m') (x : Nat) :
    Memory.get m' x = if a ≤ x ∧ x < a + bs.length then bs.getD (x - a) 0 else Memory.get m x := by
  induction bs generalizing m a with
  | nil => simp only [Memory.writeBytes, Option.some.injEq] at h; subst h; rw [if_neg]; simp only [List.length_nil]; omega
  | cons b bs ih =>
    rw [Memory.writeBytes, Memory.write_eq] at h
    by_cases ha : a < Config.memSize
    · simp only [ha, if_true] at h
      rw [ih h, Memory.get_put]
      rcases Nat.lt_trichotomy x a with hx | rfl | hx
      · rw [if_neg (show ¬(a + 1 ≤ x ∧ x < a + 1 + bs.length) by omega),
          if_neg (show ¬(a ≤ x ∧ x < a + (b :: bs).length) by omega), if_neg (show x ≠ a by omega)]
      · simp
      · obtain ⟨d, rfl⟩ : ∃ d, x = a + 1 + d := ⟨x - (a + 1), by omega⟩
        have e1 : a + 1 + d - (a + 1) = d := by omega
        have e2 : a + 1 + d - a = d + 1 := by omega
        have e3 : (a + 1 ≤ a + 1 + d ∧ a + 1 + d < a + 1 + bs.length) = (d < bs.length) := by
          apply propext; omega
        have e4 : (a ≤ a + 1 + d ∧ a + 1 + d < a + (b :: bs).length) = (d < bs.length) := by
          apply propext; simp only [List.length_cons]; omega
        simp only [e1, e2, e3, e4, List.getD_cons_succ, show a + 1 + d ≠ a by omega, if_false]
    · simp [ha] at h

/-- A block write keeps the canonical form. -/
theorem Memory.wf_writeBytes {m m' : Memory} {a : Nat} {bs : List Byte}
    (h : Memory.writeBytes m a bs = some m') (hm : m.wf = true) : m'.wf = true := by
  induction bs generalizing m a with
  | nil => simp only [Memory.writeBytes, Option.some.injEq] at h; exact h ▸ hm
  | cons b bs ih =>
    rw [Memory.writeBytes, Memory.write_eq] at h
    by_cases ha : a < Config.memSize
    · simp only [ha, if_true] at h
      exact ih h (Memory.wf_put hm ha)
    · simp [ha] at h

theorem Memory.length_readBytes {m : Memory} {a n : Nat} {bs : List Byte}
    (h : Memory.readBytes m a n = some bs) : bs.length = n := by
  rw [Memory.readBytes_eq] at h
  split at h
  · simp only [Option.some.injEq] at h; simp [← h]
  · simp at h

/-- The reset state's memory, which lists nothing, has the canonical form. -/
theorem State.reset_mem_wf : State.reset.mem.wf = true := rfl

end Sys2Proof.Machine
end

