-- ==== Sys2Proof/Laws/State.lean ====
section
/-! SUPPORT. One lemma for each field of State under each update, so that no later proof unfolds a record update. -/

namespace Sys2Proof.Machine

/-! ## setReg -/

@[simp] theorem State.setReg_v (s : State) (x : Reg) (b : Byte) : (s.setReg x b).v = s.v.set x.val b := rfl
@[simp] theorem State.setReg_i (s : State) (x : Reg) (b : Byte) : (s.setReg x b).i = s.i := rfl
@[simp] theorem State.setReg_pc (s : State) (x : Reg) (b : Byte) : (s.setReg x b).pc = s.pc := rfl
@[simp] theorem State.setReg_stack (s : State) (x : Reg) (b : Byte) : (s.setReg x b).stack = s.stack := rfl
@[simp] theorem State.setReg_sp (s : State) (x : Reg) (b : Byte) : (s.setReg x b).sp = s.sp := rfl
@[simp] theorem State.setReg_mem (s : State) (x : Reg) (b : Byte) : (s.setReg x b).mem = s.mem := rfl
@[simp] theorem State.setReg_fb (s : State) (x : Reg) (b : Byte) : (s.setReg x b).fb = s.fb := rfl
@[simp] theorem State.setReg_keys (s : State) (x : Reg) (b : Byte) : (s.setReg x b).keys = s.keys := rfl
@[simp] theorem State.setReg_lastRel (s : State) (x : Reg) (b : Byte) : (s.setReg x b).lastRel = s.lastRel := rfl
@[simp] theorem State.setReg_wait (s : State) (x : Reg) (b : Byte) : (s.setReg x b).wait = s.wait := rfl
@[simp] theorem State.setReg_dt (s : State) (x : Reg) (b : Byte) : (s.setReg x b).dt = s.dt := rfl
@[simp] theorem State.setReg_st (s : State) (x : Reg) (b : Byte) : (s.setReg x b).st = s.st := rfl
@[simp] theorem State.setReg_draws (s : State) (x : Reg) (b : Byte) : (s.setReg x b).draws = s.draws := rfl
@[simp] theorem State.setReg_report (s : State) (x : Reg) (b : Byte) : (s.setReg x b).report = s.report := rfl
@[simp] theorem State.setReg_reportLog (s : State) (x : Reg) (b : Byte) : (s.setReg x b).reportLog = s.reportLog := rfl
@[simp] theorem State.setReg_arrivals (s : State) (x : Reg) (b : Byte) : (s.setReg x b).arrivals = s.arrivals := rfl

/-! ## jump -/

@[simp] theorem State.jump_v (s : State) (w : Word) : (s.jump w).v = s.v := rfl
@[simp] theorem State.jump_i (s : State) (w : Word) : (s.jump w).i = s.i := rfl
@[simp] theorem State.jump_pc (s : State) (w : Word) : (s.jump w).pc = w := rfl
@[simp] theorem State.jump_stack (s : State) (w : Word) : (s.jump w).stack = s.stack := rfl
@[simp] theorem State.jump_sp (s : State) (w : Word) : (s.jump w).sp = s.sp := rfl
@[simp] theorem State.jump_mem (s : State) (w : Word) : (s.jump w).mem = s.mem := rfl
@[simp] theorem State.jump_fb (s : State) (w : Word) : (s.jump w).fb = s.fb := rfl
@[simp] theorem State.jump_keys (s : State) (w : Word) : (s.jump w).keys = s.keys := rfl
@[simp] theorem State.jump_lastRel (s : State) (w : Word) : (s.jump w).lastRel = s.lastRel := rfl
@[simp] theorem State.jump_wait (s : State) (w : Word) : (s.jump w).wait = s.wait := rfl
@[simp] theorem State.jump_dt (s : State) (w : Word) : (s.jump w).dt = s.dt := rfl
@[simp] theorem State.jump_st (s : State) (w : Word) : (s.jump w).st = s.st := rfl
@[simp] theorem State.jump_draws (s : State) (w : Word) : (s.jump w).draws = s.draws := rfl
@[simp] theorem State.jump_report (s : State) (w : Word) : (s.jump w).report = s.report := rfl
@[simp] theorem State.jump_reportLog (s : State) (w : Word) : (s.jump w).reportLog = s.reportLog := rfl
@[simp] theorem State.jump_arrivals (s : State) (w : Word) : (s.jump w).arrivals = s.arrivals := rfl

/-! ## raise -/

@[simp] theorem State.raise_v (s : State) (r : Report) : (s.raise r).v = s.v := rfl
@[simp] theorem State.raise_i (s : State) (r : Report) : (s.raise r).i = s.i := rfl
@[simp] theorem State.raise_pc (s : State) (r : Report) : (s.raise r).pc = s.pc := rfl
@[simp] theorem State.raise_stack (s : State) (r : Report) : (s.raise r).stack = s.stack := rfl
@[simp] theorem State.raise_sp (s : State) (r : Report) : (s.raise r).sp = s.sp := rfl
@[simp] theorem State.raise_mem (s : State) (r : Report) : (s.raise r).mem = s.mem := rfl
@[simp] theorem State.raise_fb (s : State) (r : Report) : (s.raise r).fb = s.fb := rfl
@[simp] theorem State.raise_keys (s : State) (r : Report) : (s.raise r).keys = s.keys := rfl
@[simp] theorem State.raise_lastRel (s : State) (r : Report) : (s.raise r).lastRel = s.lastRel := rfl
@[simp] theorem State.raise_wait (s : State) (r : Report) : (s.raise r).wait = s.wait := rfl
@[simp] theorem State.raise_dt (s : State) (r : Report) : (s.raise r).dt = s.dt := rfl
@[simp] theorem State.raise_st (s : State) (r : Report) : (s.raise r).st = s.st := rfl
@[simp] theorem State.raise_draws (s : State) (r : Report) : (s.raise r).draws = s.draws := rfl
@[simp] theorem State.raise_report (s : State) (r : Report) : (s.raise r).report = r := rfl
@[simp] theorem State.raise_reportLog (s : State) (r : Report) : (s.raise r).reportLog = r :: s.reportLog := rfl
@[simp] theorem State.raise_arrivals (s : State) (r : Report) : (s.raise r).arrivals = s.arrivals := rfl

/-! ## advance -/

@[simp] theorem State.advance_v (s : State) : (s.advance).v = s.v := rfl
@[simp] theorem State.advance_i (s : State) : (s.advance).i = s.i := rfl
@[simp] theorem State.advance_pc (s : State) : (s.advance).pc = s.pc + 2 := rfl
@[simp] theorem State.advance_stack (s : State) : (s.advance).stack = s.stack := rfl
@[simp] theorem State.advance_sp (s : State) : (s.advance).sp = s.sp := rfl
@[simp] theorem State.advance_mem (s : State) : (s.advance).mem = s.mem := rfl
@[simp] theorem State.advance_fb (s : State) : (s.advance).fb = s.fb := rfl
@[simp] theorem State.advance_keys (s : State) : (s.advance).keys = s.keys := rfl
@[simp] theorem State.advance_lastRel (s : State) : (s.advance).lastRel = s.lastRel := rfl
@[simp] theorem State.advance_wait (s : State) : (s.advance).wait = s.wait := rfl
@[simp] theorem State.advance_dt (s : State) : (s.advance).dt = s.dt := rfl
@[simp] theorem State.advance_st (s : State) : (s.advance).st = s.st := rfl
@[simp] theorem State.advance_draws (s : State) : (s.advance).draws = s.draws := rfl
@[simp] theorem State.advance_report (s : State) : (s.advance).report = .none := rfl
@[simp] theorem State.advance_reportLog (s : State) : (s.advance).reportLog = s.reportLog := rfl
@[simp] theorem State.advance_arrivals (s : State) : (s.advance).arrivals = s.arrivals := rfl

/-! ## tick -/

@[simp] theorem State.tick_v (s : State) : (s.tick).v = s.v := rfl
@[simp] theorem State.tick_i (s : State) : (s.tick).i = s.i := rfl
@[simp] theorem State.tick_pc (s : State) : (s.tick).pc = s.pc := rfl
@[simp] theorem State.tick_stack (s : State) : (s.tick).stack = s.stack := rfl
@[simp] theorem State.tick_sp (s : State) : (s.tick).sp = s.sp := rfl
@[simp] theorem State.tick_mem (s : State) : (s.tick).mem = s.mem := rfl
@[simp] theorem State.tick_fb (s : State) : (s.tick).fb = s.fb := rfl
@[simp] theorem State.tick_keys (s : State) : (s.tick).keys = s.keys := rfl
@[simp] theorem State.tick_lastRel (s : State) : (s.tick).lastRel = s.lastRel := rfl
@[simp] theorem State.tick_wait (s : State) : (s.tick).wait = s.wait := rfl
@[simp] theorem State.tick_dt (s : State) : (s.tick).dt = countDown s.dt := rfl
@[simp] theorem State.tick_st (s : State) : (s.tick).st = countDown s.st := rfl
@[simp] theorem State.tick_draws (s : State) : (s.tick).draws = s.draws := rfl
@[simp] theorem State.tick_report (s : State) : (s.tick).report = s.report := rfl
@[simp] theorem State.tick_reportLog (s : State) : (s.tick).reportLog = s.reportLog := rfl
@[simp] theorem State.tick_arrivals (s : State) : (s.tick).arrivals = s.arrivals := rfl

/-! ## keyDown -/

@[simp] theorem State.keyDown_v (s : State) (k : Key) : (s.keyDown k).v = s.v := rfl
@[simp] theorem State.keyDown_i (s : State) (k : Key) : (s.keyDown k).i = s.i := rfl
@[simp] theorem State.keyDown_pc (s : State) (k : Key) : (s.keyDown k).pc = s.pc := rfl
@[simp] theorem State.keyDown_stack (s : State) (k : Key) : (s.keyDown k).stack = s.stack := rfl
@[simp] theorem State.keyDown_sp (s : State) (k : Key) : (s.keyDown k).sp = s.sp := rfl
@[simp] theorem State.keyDown_mem (s : State) (k : Key) : (s.keyDown k).mem = s.mem := rfl
@[simp] theorem State.keyDown_fb (s : State) (k : Key) : (s.keyDown k).fb = s.fb := rfl
@[simp] theorem State.keyDown_keys (s : State) (k : Key) : (s.keyDown k).keys = s.keys.set k.val true := rfl
@[simp] theorem State.keyDown_lastRel (s : State) (k : Key) : (s.keyDown k).lastRel = s.lastRel := rfl
@[simp] theorem State.keyDown_wait (s : State) (k : Key) : (s.keyDown k).wait = s.wait := rfl
@[simp] theorem State.keyDown_dt (s : State) (k : Key) : (s.keyDown k).dt = s.dt := rfl
@[simp] theorem State.keyDown_st (s : State) (k : Key) : (s.keyDown k).st = s.st := rfl
@[simp] theorem State.keyDown_draws (s : State) (k : Key) : (s.keyDown k).draws = s.draws := rfl
@[simp] theorem State.keyDown_report (s : State) (k : Key) : (s.keyDown k).report = s.report := rfl
@[simp] theorem State.keyDown_reportLog (s : State) (k : Key) : (s.keyDown k).reportLog = s.reportLog := rfl
@[simp] theorem State.keyDown_arrivals (s : State) (k : Key) : (s.keyDown k).arrivals = s.arrivals := rfl

/-! ## keyUp -/

@[simp] theorem State.keyUp_v (s : State) (k : Key) : (s.keyUp k).v = s.v := rfl
@[simp] theorem State.keyUp_i (s : State) (k : Key) : (s.keyUp k).i = s.i := rfl
@[simp] theorem State.keyUp_pc (s : State) (k : Key) : (s.keyUp k).pc = s.pc := rfl
@[simp] theorem State.keyUp_stack (s : State) (k : Key) : (s.keyUp k).stack = s.stack := rfl
@[simp] theorem State.keyUp_sp (s : State) (k : Key) : (s.keyUp k).sp = s.sp := rfl
@[simp] theorem State.keyUp_mem (s : State) (k : Key) : (s.keyUp k).mem = s.mem := rfl
@[simp] theorem State.keyUp_fb (s : State) (k : Key) : (s.keyUp k).fb = s.fb := rfl
@[simp] theorem State.keyUp_keys (s : State) (k : Key) : (s.keyUp k).keys = s.keys.set k.val false := rfl
@[simp] theorem State.keyUp_lastRel (s : State) (k : Key) : (s.keyUp k).lastRel = some k := rfl
@[simp] theorem State.keyUp_wait (s : State) (k : Key) : (s.keyUp k).wait = s.wait := rfl
@[simp] theorem State.keyUp_dt (s : State) (k : Key) : (s.keyUp k).dt = s.dt := rfl
@[simp] theorem State.keyUp_st (s : State) (k : Key) : (s.keyUp k).st = s.st := rfl
@[simp] theorem State.keyUp_draws (s : State) (k : Key) : (s.keyUp k).draws = s.draws := rfl
@[simp] theorem State.keyUp_report (s : State) (k : Key) : (s.keyUp k).report = s.report := rfl
@[simp] theorem State.keyUp_reportLog (s : State) (k : Key) : (s.keyUp k).reportLog = s.reportLog := rfl
@[simp] theorem State.keyUp_arrivals (s : State) (k : Key) : (s.keyUp k).arrivals = s.arrivals := rfl

/-! ## rewind, fetchFault, unrecognized: the updates they are -/

@[simp] theorem State.rewind_eq (s : State) : s.rewind = s.jump (s.pc - 2) := rfl
@[simp] theorem State.fetchFault_eq (s : State) : s.fetchFault = s.raise (.memoryBounds s.pc) := rfl
@[simp] theorem State.unrecognized_eq (s : State) (op : Word) : s.unrecognized op = s.raise (.decodeError op) := rfl

/-! ## skipIf -/

theorem State.skipIf_pc (s : State) (c : Bool) : (s.skipIf c).pc = if c then s.pc + 2 else s.pc := by
  cases c <;> rfl
@[simp] theorem State.skipIf_v (s : State) (c : Bool) : (s.skipIf c).v = s.v := by cases c <;> rfl
@[simp] theorem State.skipIf_i (s : State) (c : Bool) : (s.skipIf c).i = s.i := by cases c <;> rfl
@[simp] theorem State.skipIf_stack (s : State) (c : Bool) : (s.skipIf c).stack = s.stack := by cases c <;> rfl
@[simp] theorem State.skipIf_sp (s : State) (c : Bool) : (s.skipIf c).sp = s.sp := by cases c <;> rfl
@[simp] theorem State.skipIf_mem (s : State) (c : Bool) : (s.skipIf c).mem = s.mem := by cases c <;> rfl
@[simp] theorem State.skipIf_fb (s : State) (c : Bool) : (s.skipIf c).fb = s.fb := by cases c <;> rfl
@[simp] theorem State.skipIf_keys (s : State) (c : Bool) : (s.skipIf c).keys = s.keys := by cases c <;> rfl
@[simp] theorem State.skipIf_lastRel (s : State) (c : Bool) : (s.skipIf c).lastRel = s.lastRel := by cases c <;> rfl
@[simp] theorem State.skipIf_wait (s : State) (c : Bool) : (s.skipIf c).wait = s.wait := by cases c <;> rfl
@[simp] theorem State.skipIf_dt (s : State) (c : Bool) : (s.skipIf c).dt = s.dt := by cases c <;> rfl
@[simp] theorem State.skipIf_st (s : State) (c : Bool) : (s.skipIf c).st = s.st := by cases c <;> rfl
@[simp] theorem State.skipIf_draws (s : State) (c : Bool) : (s.skipIf c).draws = s.draws := by cases c <;> rfl
@[simp] theorem State.skipIf_report (s : State) (c : Bool) : (s.skipIf c).report = s.report := by cases c <;> rfl
@[simp] theorem State.skipIf_reportLog (s : State) (c : Bool) : (s.skipIf c).reportLog = s.reportLog := by cases c <;> rfl
@[simp] theorem State.skipIf_arrivals (s : State) (c : Bool) : (s.skipIf c).arrivals = s.arrivals := by cases c <;> rfl

end Sys2Proof.Machine
end

