-- ==== Sys2Proof/Laws/Operands.lean ====
section
/-! SUPPORT. Registers, blocks of registers, flags and immediates: what each reads as. -/

namespace Sys2Proof.Machine

/-! ## One register -/

/-- A register written reads as the value written, every other register as before (R20). -/
theorem State.reg_setReg (s : State) (x y : Reg) (b : Byte) :
    (s.setReg x b).reg y = if y = x then b else s.reg y := by
  simp only [State.reg, State.setReg, Vector.getElem_set, eq_comm (a := y), Fin.ext_iff]

@[simp] theorem State.reg_setReg_same (s : State) (x : Reg) (b : Byte) : (s.setReg x b).reg x = b := by
  simp [State.reg_setReg]

theorem State.reg_setReg_ne (s : State) {x y : Reg} (b : Byte) (h : y ≠ x) : (s.setReg x b).reg y = s.reg y := by
  simp [State.reg_setReg, h]

/-- Registers depend on the field `v` alone. -/
theorem State.reg_congr {s t : State} (h : s.v = t.v) (x : Reg) : s.reg x = t.reg x := by
  simp [State.reg, h]

/-! ## The block V0..Vx -/

@[simp] theorem State.length_regBlock (s : State) (x : Reg) : (s.regBlock x).length = x.val + 1 := by
  simp [State.regBlock]

theorem State.getD_regBlock (s : State) (x k : Reg) (h : k ≤ x) : (s.regBlock x).getD k.val 0 = s.reg k := by
  have hk : k.val < x.val + 1 := Nat.lt_succ_of_le h
  simp [State.regBlock, State.reg, List.getD_eq_getElem?_getD, hk]

/-- Loading a block writes register k + j with byte j and no other register (R155). -/
theorem State.reg_loadRegs (s : State) (k : Nat) (bs : List Byte) (h : k + bs.length ≤ 16) (y : Reg) :
    (s.loadRegs k bs).reg y =
      if k ≤ y.val ∧ y.val < k + bs.length then bs.getD (y.val - k) 0 else s.reg y := by
  induction bs generalizing s k with
  | nil => rw [if_neg]; · rfl
           simp only [List.length_nil]; omega
  | cons b bs ih =>
    simp only [List.length_cons] at h
    rw [State.loadRegs, ih _ _ (by omega), State.reg_setReg]
    have hv : (Fin.ofNat 16 k).val = k := Nat.mod_eq_of_lt (by omega)
    rcases Nat.lt_trichotomy y.val k with hy | hy | hy
    · rw [if_neg (by omega), if_neg (c := y = Fin.ofNat 16 k) (by intro e; rw [e] at hy; omega),
        if_neg (by simp only [List.length_cons]; omega)]
    · rw [if_neg (by omega), if_pos (Fin.ext (by omega)), if_pos (by simp only [List.length_cons]; omega)]
      simp [hy]
    · obtain ⟨d, hd⟩ : ∃ d, y.val = k + 1 + d := ⟨y.val - (k + 1), by omega⟩
      rw [if_neg (c := y = Fin.ofNat 16 k) (by intro e; rw [e] at hy; omega)]
      have e1 : y.val - (k + 1) = d := by omega
      have e2 : y.val - k = d + 1 := by omega
      have e3 : (k + 1 ≤ y.val ∧ y.val < k + 1 + bs.length) = (d < bs.length) := by apply propext; omega
      have e4 : (k ≤ y.val ∧ y.val < k + (b :: bs).length) = (d < bs.length) := by
        apply propext; simp only [List.length_cons]; omega
      simp only [e1, e2, e3, e4, List.getD_cons_succ]

/-- Loading a block changes the registers alone. -/
theorem State.loadRegs_eq (s : State) (k : Nat) (bs : List Byte) :
    s.loadRegs k bs = { s with v := (s.loadRegs k bs).v } := by
  induction bs generalizing s k with
  | nil => rfl
  | cons b bs ih => rw [State.loadRegs, ih]; rfl

/-! ## Flags (R130) -/

theorem toNat_flagByte (c : Bool) : (flagByte c).toNat = if c then 1 else 0 := by cases c <;> rfl

theorem toNat_carryFlag (a b : Byte) : (carryFlag a b).toNat = if a.toNat + b.toNat > 255 then 1 else 0 := by
  simp [carryFlag, exactSum, toNat_flagByte]

theorem toNat_noBorrowFlag (a b : Byte) : (noBorrowFlag a b).toNat = if a.toNat ≥ b.toNat then 1 else 0 := by
  simp [noBorrowFlag, toNat_flagByte]

theorem toNat_shiftedOutRight (a : Byte) : (shiftedOutRight a).toNat = a.toNat % 2 := by
  simp [shiftedOutRight, BitVec.toNat_and, Nat.and_one_is_mod]

theorem toNat_shiftedOutLeft (a : Byte) : (shiftedOutLeft a).toNat = a.toNat / 128 := by
  have := a.isLt
  simp [shiftedOutLeft, BitVec.toNat_and, Nat.and_one_is_mod, Nat.shiftRight_eq_div_pow]; omega

/-! ## Immediates and addresses (R83) -/

theorem toNat_addrOperand (nnn : Addr12) : (addrOperand nnn).toNat = nnn.toNat := by
  have := nnn.isLt
  simp [addrOperand]; omega

theorem toNat_byteOperand (b : Byte) : (byteOperand b).toNat = b.toNat := by
  have := b.isLt
  simp [byteOperand]; omega

theorem toNat_glyphAddress (b : Byte) : (glyphAddress b).toNat = 0x050 + 5 * b.toNat := by
  have := b.isLt
  simp [glyphAddress, Config.fontBase, BitVec.toNat_add, BitVec.toNat_mul, toNat_byteOperand]; omega

theorem val_keyOperand (b : Byte) : (keyOperand b).val = b.toNat % 16 := by
  simp [keyOperand]

theorem toNat_keyByte (k : Key) : (keyByte k).toNat = k.val := by
  have := k.isLt
  simp [keyByte]; omega

@[simp] theorem length_bcdDigits (b : Byte) : (bcdDigits b).length = 3 := rfl

end Sys2Proof.Machine
end

