-- ==== Sys2Proof/Laws/Ops.lean ====
section
/-! SUPPORT. What each shared operation can do, once; the provers cite these instead of unfolding the operations. -/

namespace Sys2Proof.Machine

/-! ## The call stack (R25 to R27) -/

/-- A push either stores the word in slot SP and raises SP, or finds the stack full. -/
theorem State.push_cases (s : State) (w : Word) :
    (∃ h : s.sp.val < 16, s.push w =
      some { s with stack := s.stack.set s.sp.val w, sp := ⟨s.sp.val + 1, Nat.succ_lt_succ h⟩ }) ∨
    (s.sp.val = 16 ∧ s.push w = none) := by
  unfold State.push
  by_cases h : s.sp.val < 16
  · exact .inl ⟨h, dif_pos h⟩
  · exact .inr ⟨by have := s.sp.isLt; omega, dif_neg h⟩

/-- A pop either lowers SP and gives the slot below it, or finds the stack empty. -/
theorem State.pop_cases (s : State) :
    (∃ h : 0 < s.sp.val, s.pop = some (s.stack[s.sp.val - 1],
      { s with sp := ⟨s.sp.val - 1, Nat.lt_of_le_of_lt (Nat.sub_le _ _) s.sp.isLt⟩ })) ∨
    (s.sp.val = 0 ∧ s.pop = none) := by
  unfold State.pop
  by_cases h : 0 < s.sp.val
  · exact .inl ⟨h, dif_pos h⟩
  · exact .inr ⟨by omega, dif_neg h⟩

/-! ## Accesses through I (R57) -/

/-- A block store answers a next state: memory with the block written, the range being valid, or the report alone. -/
theorem State.storeBlock_cases (s : State) (bs : List Byte) :
    ((bs = [] ∨ s.i.toNat + bs.length ≤ Config.memSize) ∧
      ∃ m, s.mem.writeBytes s.i.toNat bs = some m ∧ s.storeBlock bs = .next { s with mem := m }) ∨
    (¬(bs = [] ∨ s.i.toNat + bs.length ≤ Config.memSize) ∧ s.storeBlock bs = .next (s.raise (.memoryBounds s.i))) := by
  have hs := Memory.writeBytes_isSome s.mem s.i.toNat bs
  unfold State.storeBlock
  cases h : s.mem.writeBytes s.i.toNat bs with
  | some m => exact .inl ⟨hs.1 (by simp [h]), m, rfl, rfl⟩
  | none => exact .inr ⟨fun hb => by simp [h] at hs; exact absurd hb (by simpa using hs), rfl⟩

/-- A block read goes on with the bytes of a valid range, or answers the report alone. -/
theorem State.withBlock_eq (s : State) (n : Nat) (use : List Byte → State) :
    s.withBlock n use =
      if n = 0 ∨ s.i.toNat + n ≤ Config.memSize then .next (use ((List.range' s.i.toNat n).map (Memory.get s.mem)))
      else .next (s.raise (.memoryBounds s.i)) := by
  unfold State.withBlock
  rw [Memory.readBytes_eq]
  by_cases h : n = 0 ∨ s.i.toNat + n ≤ Config.memSize <;> simp [h]

/-! ## The fetch (R69, R102) -/

/-- The fetch gives MEM[PC] :: MEM[PC+1] when both bytes exist, and nothing when PC >= 0xFFF. -/
theorem State.fetch_eq (s : State) :
    s.fetch = if s.pc.toNat + 1 < Config.memSize
      then some (Memory.get s.mem s.pc.toNat ++ Memory.get s.mem (s.pc.toNat + 1)) else none :=
  Memory.readWord_eq _ _

theorem State.fetch_congr {s t : State} (hp : s.pc = t.pc) (hm : s.mem = t.mem) : s.fetch = t.fetch := by
  simp [State.fetch, hp, hm]

end Sys2Proof.Machine
end

