-- ==== Sys2Proof/Laws/Events.lean ====
section
/-! SUPPORT. What an event, the arrivals before a step, and a load can do. -/

namespace Sys2Proof.Machine

theorem toNat_countDown (b : Byte) : (countDown b).toNat = b.toNat - 1 := by
  have := b.isLt
  unfold countDown
  split
  · rw [BitVec.toNat_sub]; simp; omega
  · omega

/-- An event changes DT, ST, KEYS and LASTREL alone (R208, R215). -/
theorem State.event_eq (s : State) (e : Event) :
    s.event e = { s with dt := (s.event e).dt, st := (s.event e).st, keys := (s.event e).keys, lastRel := (s.event e).lastRel } := by
  cases e <;> rfl

theorem State.events_eq (s : State) (es : List Event) :
    s.events es =
      { s with dt := (s.events es).dt, st := (s.events es).st, keys := (s.events es).keys, lastRel := (s.events es).lastRel } := by
  induction es generalizing s with
  | nil => rfl
  | cons e es ih =>
    have h := ih (s.event e)
    rw [State.events, h, State.event_eq]

/-- What falls before a step changes DT, ST, KEYS and LASTREL, and leaves the later arrivals (R216; log entry 3). -/
theorem State.arrive_eq (s : State) :
    s.arrive = { s with dt := s.arrive.dt, st := s.arrive.st, keys := s.arrive.keys, lastRel := s.arrive.lastRel,
                        arrivals := s.arrivals.tail } := by
  unfold State.arrive
  split
  · next h => cases s; simp_all
  · next es rest h =>
    have h' := State.events_eq ({ s with arrivals := rest } : State) es
    rw [h]
    exact h'

theorem State.arrive_of_none {s : State} (h : s.arrivals = []) : s.arrive = s := by
  simp [State.arrive, h]

theorem State.arrive_of_cons {s : State} {es : List Event} {rest : List (List Event)} (h : s.arrivals = es :: rest) :
    s.arrive = ({ s with arrivals := rest } : State).events es := by
  simp [State.arrive, h]

@[simp] theorem State.events_nil (s : State) : s.events [] = s := rfl

@[simp] theorem State.events_cons (s : State) (e : Event) (es : List Event) :
    s.events (e :: es) = (s.event e).events es := rfl

/-- The events of a list happen in its order: the later part sees what the earlier part left (R216). -/
theorem State.events_append (s : State) (es es' : List Event) : s.events (es ++ es') = (s.events es).events es' := by
  induction es generalizing s with
  | nil => rfl
  | cons e es ih => exact ih (s.event e)

@[simp] theorem State.arrive_v (s : State) : s.arrive.v = s.v := by rw [State.arrive_eq]
@[simp] theorem State.arrive_i (s : State) : s.arrive.i = s.i := by rw [State.arrive_eq]
@[simp] theorem State.arrive_pc (s : State) : s.arrive.pc = s.pc := by rw [State.arrive_eq]
@[simp] theorem State.arrive_stack (s : State) : s.arrive.stack = s.stack := by rw [State.arrive_eq]
@[simp] theorem State.arrive_sp (s : State) : s.arrive.sp = s.sp := by rw [State.arrive_eq]
@[simp] theorem State.arrive_mem (s : State) : s.arrive.mem = s.mem := by rw [State.arrive_eq]
@[simp] theorem State.arrive_fb (s : State) : s.arrive.fb = s.fb := by rw [State.arrive_eq]
@[simp] theorem State.arrive_wait (s : State) : s.arrive.wait = s.wait := by rw [State.arrive_eq]
@[simp] theorem State.arrive_draws (s : State) : s.arrive.draws = s.draws := by rw [State.arrive_eq]
@[simp] theorem State.arrive_report (s : State) : s.arrive.report = s.report := by rw [State.arrive_eq]
@[simp] theorem State.arrive_reportLog (s : State) : s.arrive.reportLog = s.reportLog := by rw [State.arrive_eq]
@[simp] theorem State.arrive_arrivals (s : State) : s.arrive.arrivals = s.arrivals.tail := by rw [State.arrive_eq]

@[simp] theorem State.arrive_fetch (s : State) : s.arrive.fetch = s.fetch := State.fetch_congr (by simp) (by simp)

@[simp] theorem State.arrive_reg (s : State) (x : Reg) : s.arrive.reg x = s.reg x := State.reg_congr (by simp) x

/-! ## The memory of R243 step 1 -/

theorem Memory.unlisted_of_not_font {a : Nat} (h : ¬(0x50 ≤ a ∧ a < 0xA0)) : Memory.unlisted a = 0 := by
  unfold Memory.unlisted
  split
  · next h' =>
    have hl : fontBytes.length = 80 := rfl
    rw [List.getD_eq_default]
    simp only [Config.fontBase] at h' ⊢
    omega
  · rfl

/-- Every byte of the memory R243 creates is zero. -/
theorem Memory.get_zero (a : Nat) : Memory.get Memory.zero a = 0 := by
  have hg : ∀ n lo, Memory.get ((List.range' lo n).map (fun a => (a, 0))) a =
      if lo ≤ a ∧ a < lo + n then 0 else Memory.unlisted a := by
    intro n
    induction n with
    | zero => intro lo; rw [if_neg (by omega)]; rfl
    | succ n ih =>
      intro lo
      simp only [List.range'_succ, List.map_cons, Memory.get, ih]
      repeat' split
      all_goals first | rfl | omega
  refine (hg fontBytes.length Config.fontBase).trans ?_
  split
  · rfl
  · next h => exact Memory.unlisted_of_not_font h

/-- A load answers memory with the bytes placed, or fails with nothing copied (R52). -/
theorem State.load_cases (s : State) (offset : Nat) (bs : List Byte) :
    (offset + bs.length ≤ Config.memSize ∧
      ∃ m, s.mem.writeBytes offset bs = some m ∧ s.load offset bs = .next { s with mem := m }) ∨
    (Config.memSize < offset + bs.length ∧ s.load offset bs = .fault (.loadBounds offset)) := by
  unfold State.load
  by_cases h : offset + bs.length ≤ Config.memSize
  · obtain ⟨m, hm⟩ := Option.isSome_iff_exists.1 ((Memory.writeBytes_isSome s.mem offset bs).2 (.inr h))
    exact .inl ⟨h, m, hm, by simp [h, hm]⟩
  · exact .inr ⟨by omega, by simp [h]⟩

end Sys2Proof.Machine
end

