-- ==== Sys2Proof/Laws/Framebuffer.lean ====
section
/-! SUPPORT. Pixels after a clear and after a flip, and what one bit of a draw does. -/

namespace Sys2Proof.Machine

@[simp] theorem Framebuffer.pixel_cleared (y : Fin 32) (x : Fin 64) : Framebuffer.cleared.pixel y x = false := by
  simp [Framebuffer.pixel, Framebuffer.cleared]

/-- A flip inverts its pixel and no other (R162). -/
theorem Framebuffer.pixel_flip (fb : Framebuffer) (y y' : Fin 32) (x x' : Fin 64) :
    (fb.flip y x).pixel y' x' = (fb.pixel y' x' ^^ (decide (y' = y) && decide (x' = x))) := by
  unfold Framebuffer.flip Framebuffer.pixel
  rw [Vector.getElem_set]
  by_cases hy : y' = y
  · subst hy
    rw [if_pos rfl, Vector.getElem_set]
    by_cases hx : x' = x
    · subst hx; simp
    · simp [hx, Fin.val_ne_of_ne (Ne.symm hx)]
  · simp [hy, Fin.val_ne_of_ne (Ne.symm hy)]

/-- Two grids with the same pixels are equal. -/
theorem Framebuffer.ext_pixel {fb fb' : Framebuffer} (h : ∀ y x, fb.pixel y x = fb'.pixel y x) : fb = fb' := by
  apply Vector.ext
  intro y hy
  apply Vector.ext
  intro x hx
  exact h ⟨y, hy⟩ ⟨x, hx⟩

/-- One bit of a sprite row: a pixel changes exactly if the bit is set and falls on it (R162, R163(d)). -/
theorem drawBit_pixel (x0 y0 row : Nat) (b : Byte) (acc : Framebuffer × Bool) (col : Nat) (y : Fin 32) (x : Fin 64) :
    (drawBit x0 y0 row b acc col).1.pixel y x =
      (acc.1.pixel y x ^^ (spriteBit b col && decide (y = Fin.ofNat 32 (y0 + row)) && decide (x = Fin.ofNat 64 (x0 + col)))) := by
  unfold drawBit
  split
  · next h => rw [Framebuffer.pixel_flip]; simp [h]
  · next h => simp [h]

/-- One bit of a sprite row: the collision is noted when a set bit falls on a pixel that is on (R162, R163(e)). -/
theorem drawBit_collision (x0 y0 row : Nat) (b : Byte) (acc : Framebuffer × Bool) (col : Nat) :
    (drawBit x0 y0 row b acc col).2 =
      (acc.2 || (spriteBit b col && acc.1.pixel (Fin.ofNat 32 (y0 + row)) (Fin.ofNat 64 (x0 + col)))) := by
  unfold drawBit
  split
  · next h => simp [h]
  · next h => simp [h]

end Sys2Proof.Machine
end

