-- ==== Sys2Proof/Laws/PerInstr.lean ====
section
/-! SUPPORT. Statements made for each instruction as syntax. -/

namespace Sys2Proof.Laws.RowMatch

/-- Every word the encoder gives an instruction, whatever its operands, agrees with the instruction's row of R84 in the
bits the row fixes: `op AND mask == match`. -/
def Statement (i : Instr) : Prop := encode i &&& i.rowMask = i.rowMatch

theorem cls : Statement (.cls) := rfl

theorem ret : Statement (.ret) := rfl

theorem sys (nnn : Addr12) : Statement (.sys nnn) := (encAddr_and ..).trans rfl

theorem jp (nnn : Addr12) : Statement (.jp nnn) := (encAddr_and ..).trans rfl

theorem call (nnn : Addr12) : Statement (.call nnn) := (encAddr_and ..).trans rfl

theorem seImm (x : Reg) (nn : Byte) : Statement (.seImm x nn) := (encRegImm_and_group ..).trans rfl

theorem sneImm (x : Reg) (nn : Byte) : Statement (.sneImm x nn) := (encRegImm_and_group ..).trans rfl

theorem seReg (x : Reg) (y : Reg) : Statement (.seReg x y) := (encRegReg_and ..).trans rfl

theorem ldImm (x : Reg) (nn : Byte) : Statement (.ldImm x nn) := (encRegImm_and_group ..).trans rfl

theorem addImm (x : Reg) (nn : Byte) : Statement (.addImm x nn) := (encRegImm_and_group ..).trans rfl

theorem ldReg (x : Reg) (y : Reg) : Statement (.ldReg x y) := (encRegReg_and ..).trans rfl

theorem orReg (x : Reg) (y : Reg) : Statement (.orReg x y) := (encRegReg_and ..).trans rfl

theorem andReg (x : Reg) (y : Reg) : Statement (.andReg x y) := (encRegReg_and ..).trans rfl

theorem xorReg (x : Reg) (y : Reg) : Statement (.xorReg x y) := (encRegReg_and ..).trans rfl

theorem addReg (x : Reg) (y : Reg) : Statement (.addReg x y) := (encRegReg_and ..).trans rfl

theorem subReg (x : Reg) (y : Reg) : Statement (.subReg x y) := (encRegReg_and ..).trans rfl

theorem shr (x : Reg) (y : Reg) : Statement (.shr x y) := (encRegReg_and ..).trans rfl

theorem subnReg (x : Reg) (y : Reg) : Statement (.subnReg x y) := (encRegReg_and ..).trans rfl

theorem shl (x : Reg) (y : Reg) : Statement (.shl x y) := (encRegReg_and ..).trans rfl

theorem sneReg (x : Reg) (y : Reg) : Statement (.sneReg x y) := (encRegReg_and ..).trans rfl

theorem ldI (nnn : Addr12) : Statement (.ldI nnn) := (encAddr_and ..).trans rfl

theorem jpV0 (nnn : Addr12) : Statement (.jpV0 nnn) := (encAddr_and ..).trans rfl

theorem rnd (x : Reg) (nn : Byte) : Statement (.rnd x nn) := (encRegImm_and_group ..).trans rfl

theorem drw (x : Reg) (y : Reg) (n : Nibble) : Statement (.drw x y n) := (encRegReg_and_group ..).trans rfl

theorem skp (x : Reg) : Statement (.skp x) := (encRegImm_and ..).trans rfl

theorem sknp (x : Reg) : Statement (.sknp x) := (encRegImm_and ..).trans rfl

theorem ldVxDT (x : Reg) : Statement (.ldVxDT x) := (encRegImm_and ..).trans rfl

theorem ldVxK (x : Reg) : Statement (.ldVxK x) := (encRegImm_and ..).trans rfl

theorem ldDTVx (x : Reg) : Statement (.ldDTVx x) := (encRegImm_and ..).trans rfl

theorem ldSTVx (x : Reg) : Statement (.ldSTVx x) := (encRegImm_and ..).trans rfl

theorem addI (x : Reg) : Statement (.addI x) := (encRegImm_and ..).trans rfl

theorem ldF (x : Reg) : Statement (.ldF x) := (encRegImm_and ..).trans rfl

theorem ldB (x : Reg) : Statement (.ldB x) := (encRegImm_and ..).trans rfl

theorem ldIVx (x : Reg) : Statement (.ldIVx x) := (encRegImm_and ..).trans rfl

theorem ldVxI (x : Reg) : Statement (.ldVxI x) := (encRegImm_and ..).trans rfl

end Sys2Proof.Laws.RowMatch
end

