-- ==== Sys2Proof/Laws/Step.lean ====
section
/-! SUPPORT. What a step can do, once, and runs of several steps. -/

namespace Sys2Proof.Machine

/-- Every way a step can end in a next state: the fetch is out of bounds (R102), the opcode is unrecognized (R104), or
the decoded instruction executes (R101). -/
theorem step_cases {s t : State} (h : step s = .next t) :
    (s.fetch = none ∧ t = s.arrive.fetchFault) ∨
    (∃ op r, s.fetch = some op ∧ decode op = .error r ∧ t = s.arrive.advance.unrecognized op) ∨
    (∃ op i, s.fetch = some op ∧ decode op = .ok i ∧ exec i s.arrive.advance = .next t) := by
  unfold step State.stepBlock at h
  rw [State.arrive_fetch] at h
  split at h
  · next hf => exact .inl ⟨hf, by simpa using h.symm⟩
  · next op hf =>
    split at h
    · next r hd => exact .inr (.inl ⟨op, r, hf, hd, by simpa using h.symm⟩)
    · next i hd => exact .inr (.inr ⟨op, i, hf, hd, h⟩)

/-! ## The two meanings that branch on the call stack, and those that access memory through I -/

theorem exec_call_eq (nnn : Addr12) (s : State) :
    exec (.call nnn) s =
      if h : s.sp.val < 16 then
        .next { s with stack := s.stack.set s.sp.val s.pc, sp := ⟨s.sp.val + 1, Nat.succ_lt_succ h⟩,
                       pc := addrOperand nnn }
      else .next (s.raise .stackOverflow) := by
  by_cases h : s.sp.val < 16 <;> simp [exec, execCall, State.push, State.jump, h]

theorem exec_ret_eq (s : State) :
    exec .ret s =
      if h : 0 < s.sp.val then
        .next { s with sp := ⟨s.sp.val - 1, Nat.lt_of_le_of_lt (Nat.sub_le _ _) s.sp.isLt⟩,
                       pc := s.stack[s.sp.val - 1] }
      else .next (s.raise .stackUnderflow) := by
  by_cases h : 0 < s.sp.val <;> simp [exec, execRet, State.pop, State.jump, h]

/-- Fx65: registers from the bytes at I, the range being valid, else the report (R155). -/
theorem exec_ldVxI_eq (x : Reg) (s : State) :
    exec (.ldVxI x) s =
      if s.i.toNat + (x.val + 1) ≤ Config.memSize then
        .next (s.loadRegs 0 ((List.range' s.i.toNat (x.val + 1)).map (Memory.get s.mem)))
      else .next (s.raise (.memoryBounds s.i)) := by
  simp [exec, execLdVxI, State.withBlock_eq, blockCount]

/-- Dxyn: the drawn grid and the flag, the range being valid, else the report (R162). -/
theorem exec_drw_eq (x y : Reg) (n : Nibble) (s : State) :
    exec (.drw x y n) s =
      if n.toNat = 0 ∨ s.i.toNat + n.toNat ≤ Config.memSize then
        let drawn := drawSprite s.fb (s.reg x) (s.reg y) ((List.range' s.i.toNat n.toNat).map (Memory.get s.mem))
        .next (({ s with fb := drawn.1 } : State).setReg VF (collisionFlag drawn.2))
      else .next (s.raise (.memoryBounds s.i)) := by
  simp only [exec, execDrw, State.withBlock_eq]

/-! ## Runs -/

/-- One more step of any machine that answers a next state. -/
theorem run_succ_of_next (M : Host.Core) (k : Nat) (s t : M.State) (h : M.step s = .next t) :
    M.run (k + 1) s = M.run k t := by
  simp only [Host.Core.run, h]

theorem core_run_zero (s : State) : Sys2Proof.core.run 0 s = .next s := rfl

theorem core_run_succ_of_next {s t : State} (k : Nat) (h : step s = .next t) :
    Sys2Proof.core.run (k + 1) s = Sys2Proof.core.run k t :=
  run_succ_of_next Sys2Proof.core k s t h

end Sys2Proof.Machine
end

