-- ==== Sys2Proof/Tests/Slice0.lean ====
section
/-! SUPPORT. The model's own tests. Every expected value is 95_test_vectors.md's (T<n>, E<n>, P<n>) or computed by hand from
the rule named; the second half shows, for each obligation with hypotheses, concrete values that meet them all. -/

set_option Elab.async false

namespace Sys2Proof.Tests

open Sys2Proof.Machine

/-! ## Helpers -/

/-- The reset state with some registers set. -/
def regs (l : List (Reg × Byte)) : State := l.foldl (fun s p => s.setReg p.1 p.2) State.reset

/-- What the next step leaves, seen through `f`: the instruction `w` placed where the step fetches. -/
def see {α : Type} (s : State) (w : Nat) (f : State → α) : Option α :=
  match step (s.withFetchWord 16 w) with
  | .next t => some (f t)
  | .fault _ => none
  | .refused _ => none

/-- PC, report and whether the report is on record. -/
def pcReport (t : State) : Word × Report := (t.pc, t.report)

/-- Some pixels of a row. -/
def row (fb : Framebuffer) (y : Fin 32) (xs : List (Fin 64)) : List Bool := xs.map (fb.pixel y)

/-! ## WellFormed: each check refuses an ill-formed term (R84 row 3, R86) -/

theorem smoke_sys_0E0_refused : (Instr.sys 0x0E0).wellFormed = false := by decide
theorem smoke_sys_0EE_refused : (Instr.sys 0x0EE).wellFormed = false := by decide
theorem smoke_sys_1E0_accepted : (Instr.sys 0x1E0).wellFormed = true := by decide

/-! ## Decoding: a word for every constructor, written out from R84's patterns -/

theorem test_decode_cls : decode 0x00E0 = .ok .cls := by rfl
theorem test_decode_ret : decode 0x00EE = .ok .ret := by rfl
theorem test_decode_sys : decode 0x01E0 = .ok (.sys 0x1E0) := by rfl
theorem test_decode_jp : decode 0x1ABD = .ok (.jp 0xABD) := by rfl
theorem test_decode_call : decode 0x2300 = .ok (.call 0x300) := by rfl
theorem test_decode_seImm : decode 0x3AFF = .ok (.seImm 10 0xFF) := by rfl
theorem test_decode_sneImm : decode 0x432B = .ok (.sneImm 3 0x2B) := by rfl
theorem test_decode_seReg : decode 0x5120 = .ok (.seReg 1 2) := by rfl
theorem test_decode_ldImm : decode 0x6FAB = .ok (.ldImm 15 0xAB) := by rfl
theorem test_decode_addImm : decode 0x7F0A = .ok (.addImm 15 0x0A) := by rfl
theorem test_decode_ldReg : decode 0x8120 = .ok (.ldReg 1 2) := by rfl
theorem test_decode_orReg : decode 0x8121 = .ok (.orReg 1 2) := by rfl
theorem test_decode_andReg : decode 0x8122 = .ok (.andReg 1 2) := by rfl
theorem test_decode_xorReg : decode 0x8123 = .ok (.xorReg 1 2) := by rfl
theorem test_decode_addReg : decode 0x81F4 = .ok (.addReg 1 15) := by rfl
theorem test_decode_subReg : decode 0x8F15 = .ok (.subReg 15 1) := by rfl
theorem test_decode_shr : decode 0x8056 = .ok (.shr 0 5) := by rfl
theorem test_decode_subnReg : decode 0x8127 = .ok (.subnReg 1 2) := by rfl
theorem test_decode_shl : decode 0x812E = .ok (.shl 1 2) := by rfl
theorem test_decode_sneReg : decode 0x9120 = .ok (.sneReg 1 2) := by rfl
theorem test_decode_ldI : decode 0xA123 = .ok (.ldI 0x123) := by rfl
theorem test_decode_jpV0 : decode 0xBFFF = .ok (.jpV0 0xFFF) := by rfl
theorem test_decode_rnd : decode 0xC10F = .ok (.rnd 1 0x0F) := by rfl
theorem test_decode_drw : decode 0xD12F = .ok (.drw 1 2 15) := by rfl
theorem test_decode_skp : decode 0xE49E = .ok (.skp 4) := by rfl
theorem test_decode_sknp : decode 0xE4A1 = .ok (.sknp 4) := by rfl
theorem test_decode_ldVxDT : decode 0xF307 = .ok (.ldVxDT 3) := by rfl
theorem test_decode_ldVxK : decode 0xF10A = .ok (.ldVxK 1) := by rfl
theorem test_decode_ldDTVx : decode 0xF315 = .ok (.ldDTVx 3) := by rfl
theorem test_decode_ldSTVx : decode 0xF318 = .ok (.ldSTVx 3) := by rfl
theorem test_decode_addI : decode 0xF21E = .ok (.addI 2) := by rfl
theorem test_decode_ldF : decode 0xF329 = .ok (.ldF 3) := by rfl
theorem test_decode_ldB : decode 0xF033 = .ok (.ldB 0) := by rfl
theorem test_decode_ldIVx : decode 0xF255 = .ok (.ldIVx 2) := by rfl
theorem test_decode_ldVxI : decode 0xF265 = .ok (.ldVxI 2) := by rfl

/-- T2, T3: words that match no row. -/
theorem test_decode_unrecognized :
    ∀ w ∈ [0x5121, 0x8128, 0x812F, 0x9121, 0xE19F, 0xE000, 0xF000, 0xF1FF, 0xF175],
      selectInstr (BitVec.ofNat 16 w) = none := by decide

/-- 0nnn takes every other word of group 0 (T4, C2), its bytes high byte first (R53). -/
theorem test_decode_bytes : decodeBytes [0x0F, 0xEE, 0x12] = .ok (.sys 0xFEE, [0x12]) := by rfl
theorem test_decode_truncated : decodeBytes [0x00] = .error .truncated := by rfl

/-! ## The step (T2, T5, T6, T7) -/

theorem test_step_unrecognized : see State.reset 0x5121 pcReport = some (0x202, .decodeError 0x5121) := by decide +kernel
theorem test_step_fetch_bounds :
    (match step { State.reset with pc := 0xFFF } with
      | .next t => some (t.pc, t.report, t.reportLog)
      | .fault _ => none
      | .refused _ => none) = some (0xFFF, .memoryBounds 0xFFF, [.memoryBounds 0xFFF]) := by decide +kernel
theorem test_step_last_word :
    see { State.reset with pc := 0xFFE } 0x602A (fun t => (t.reg 0, t.pc, t.report)) = some (0x2A, 0x1000, .none) := by decide +kernel
theorem test_step_odd_pc :
    see { State.reset with pc := 0x201 } 0x6107 (fun t => (t.reg 1, t.pc)) = some (7, 0x203) := by decide +kernel

/-! ## Control transfer (T1, T10 to T23) -/

theorem test_sys : see State.reset 0x0FEE (fun t => (t.pc, t.report, t.sp)) = some (0x202, .none, 0) := by decide +kernel
theorem test_jp : see State.reset 0x1ABD pcReport = some (0xABD, .none) := by decide +kernel
theorem test_call : see State.reset 0x2300 (fun t => (t.stack[0], t.sp, t.pc)) = some (0x202, 1, 0x300) := by decide +kernel
theorem test_call_overflow :
    see { State.reset with sp := 16 } 0x2300 (fun t => (t.sp, pcReport t)) = some (16, 0x202, .stackOverflow) := by decide +kernel
theorem test_ret :
    see { State.reset with sp := 2, stack := (State.reset.stack.set 0 0x204).set 1 0x400 } 0x00EE
      (fun t => (t.pc, t.sp, t.stack[1])) = some (0x400, 1, 0x400) := by decide +kernel
theorem test_ret_underflow :
    see State.reset 0x00EE (fun t => (t.sp, pcReport t)) = some (0, 0x202, .stackUnderflow) := by decide +kernel
theorem test_jpV0_beyond : see (regs [(0, 0xFF)]) 0xBFFF pcReport = some (0x10FE, .none) := by decide +kernel
theorem test_jpV0_always_V0 : see (regs [(0, 4), (2, 0x80)]) 0xB2F0 State.pc = some 0x2F4 := by decide +kernel
theorem test_seImm :
    (see (regs [(3, 0x2A)]) 0x332A State.pc, see (regs [(3, 0x2A)]) 0x332B State.pc) = (some 0x204, some 0x202) := by decide +kernel
theorem test_sneImm :
    (see (regs [(3, 0x2A)]) 0x432A State.pc, see (regs [(3, 0x2A)]) 0x432B State.pc) = (some 0x202, some 0x204) := by decide +kernel
theorem test_seReg :
    (see (regs [(1, 7), (2, 7)]) 0x5120 State.pc, see (regs [(1, 7), (2, 8)]) 0x5120 State.pc) =
      (some 0x204, some 0x202) := by decide +kernel
theorem test_sneReg :
    (see (regs [(1, 7), (2, 7)]) 0x9120 State.pc, see (regs [(1, 7), (2, 8)]) 0x9120 State.pc) =
      (some 0x202, some 0x204) := by decide +kernel

/-! ## Registers (T24 to T55) -/

/-- Vx and VF after the step. -/
def xf (x : Reg) (t : State) : Byte × Byte := (t.reg x, t.reg VF)

theorem test_ldImm : see State.reset 0x6FAB (State.reg · VF) = some 0xAB := by decide +kernel
theorem test_addImm_wraps : see (regs [(0, 255), (15, 7)]) 0x7001 (xf 0) = some (0, 7) := by decide +kernel
theorem test_addImm_VF : see (regs [(15, 250)]) 0x7F0A (xf 15) = some (4, 4) := by decide +kernel
theorem test_ldReg : see (regs [(2, 0x5A)]) 0x8120 (fun t => (t.reg 1, t.reg 2)) = some (0x5A, 0x5A) := by decide +kernel
theorem test_orReg : see (regs [(1, 0xF0), (2, 0x0F), (15, 7)]) 0x8121 (xf 1) = some (0xFF, 7) := by decide +kernel
theorem test_andReg : see (regs [(1, 0xF0), (2, 0x0F), (15, 7)]) 0x8122 (xf 1) = some (0x00, 7) := by decide +kernel
theorem test_xorReg : see (regs [(1, 0xF0), (2, 0x0F), (15, 7)]) 0x8123 (xf 1) = some (0xFF, 7) := by decide +kernel
theorem test_addReg_carry : see (regs [(0, 255), (1, 1)]) 0x8014 (xf 0) = some (0, 1) := by decide +kernel
theorem test_addReg_VF : see (regs [(15, 200), (1, 100)]) 0x8F14 (xf 15) = some (1, 1) := by decide +kernel
theorem test_subReg_borrow : see (regs [(0, 5), (1, 10)]) 0x8015 (xf 0) = some (251, 0) := by decide +kernel
theorem test_subReg_y_VF : see (regs [(1, 10), (15, 3)]) 0x81F5 (xf 1) = some (9, 1) := by decide +kernel
theorem test_shr_ignores_y :
    see (regs [(0, 1), (5, 0xEE)]) 0x8056 (fun t => (xf 0 t, t.reg 5)) = some ((0, 1), 0xEE) := by decide +kernel
theorem test_shr_VF : see (regs [(15, 0xFF)]) 0x8F06 (xf 15) = some (0, 0) := by decide +kernel
theorem test_subnReg : see (regs [(1, 5), (2, 10)]) 0x8127 (xf 1) = some (5, 1) := by decide +kernel
theorem test_subnReg_y_VF : see (regs [(1, 10), (15, 3)]) 0x81F7 (xf 1) = some (246, 0) := by decide +kernel
theorem test_shl : see (regs [(1, 0x81)]) 0x810E (xf 1) = some (0x02, 1) := by decide +kernel
theorem test_shl_VF : see (regs [(15, 0x81)]) 0x8F0E (xf 15) = some (2, 2) := by decide +kernel

/-- T54: whatever the random byte, masked with 0 it is 0. -/
theorem test_rnd_masked (s : State) : ∃ t, exec (.rnd 1 0) s = .next t ∧ t.reg 1 = 0 :=
  ⟨_, rfl, by simp⟩

/-! ## Index register and memory (T56 to T72) -/

theorem test_ldI : see { State.reset with i := 0xFFFF } 0xA123 State.i = some 0x123 := by decide +kernel
theorem test_addI_wraps : see { regs [(2, 1)] with i := 0xFFFF } 0xF21E (fun t => (t.i, t.reg VF)) = some (0, 0) := by decide +kernel
theorem test_ldF : see (regs [(3, 0xFF)]) 0xF329 State.i = some 0x54B := by decide +kernel
theorem test_ldB :
    see { regs [(0, 156)] with i := 0x300 } 0xF033 (fun t => t.mem.readBytes 0x300 3) = some (some [1, 5, 6]) := by decide +kernel
theorem test_ldB_beyond :
    see { regs [(0, 9)] with i := 0xFFE } 0xF033 (fun t => (pcReport t, t.mem.read 0xFFF)) =
      some ((0x202, .memoryBounds 0xFFE), some 0) := by decide +kernel
theorem test_ldIVx :
    see { regs [(0, 1), (1, 2), (2, 3), (3, 4)] with i := 0x300 } 0xF255 (fun t => (t.mem.readBytes 0x300 4, t.i)) =
      some (some [1, 2, 3, 0], 0x300) := by decide +kernel
theorem test_ldIVx_beyond :
    see { regs [(0, 1)] with i := 0xFF1 } 0xFF55 (fun t => (t.report, t.mem.read 0xFF1)) =
      some (.memoryBounds 0xFF1, some 0) := by decide +kernel
theorem test_ldVxI_font :
    see { State.reset with i := 0x050 } 0xF465 (fun t => (t.v.toList.take 6, t.i)) =
      some ([0xF0, 0x90, 0x90, 0x90, 0xF0, 0], 0x050) := by decide +kernel
theorem test_ldVxI_beyond :
    see { regs [(0, 7)] with i := 0xFFF } 0xF165 (fun t => (t.report, t.reg 0)) = some (.memoryBounds 0xFFF, 7) := by decide +kernel

/-! ## Display (T73 to T83) -/

theorem test_cls :
    see { State.reset with fb := Framebuffer.cleared.flip 3 4 } 0x00E0 (fun t => row t.fb 3 [3, 4, 5]) =
      some [false, false, false] := by decide +kernel
/-- E7: an all-on row at (60, 0) wraps four columns. -/
theorem test_drw_wraps :
    see { regs [(0, 60)] with i := 0x300, mem := [(0x300, 0xFF)] } 0xD011
      (fun t => (row t.fb 0 [59, 60, 63, 0, 3, 4], t.reg VF)) = some ([false, true, true, true, true, false], 0) := by
  decide +kernel
/-- T78: bit 7 is column 0; one pixel turned off is a collision. -/
theorem test_drw_collision :
    see { State.reset with i := 0x300, mem := [(0x300, 0xC0)], fb := Framebuffer.cleared.flip 0 1 } 0xD011
      (fun t => (row t.fb 0 [0, 1, 2], t.reg VF)) = some ([true, false, false], 1) := by decide +kernel

/-! ## Keypad (T84 to T93) -/

theorem test_skp :
    see ((regs [(4, 0x1A)]).keyDown 10) 0xE49E State.pc = some 0x204 := by decide +kernel
theorem test_sknp :
    (see ((regs [(4, 0x0A)]).keyDown 10) 0xE4A1 State.pc, see (regs [(4, 0x0A)]) 0xE4A1 State.pc) =
      (some 0x202, some 0x204) := by decide +kernel
theorem test_ldVxK_entry :
    see { regs [(1, 0x77)] with lastRel := some 4 } 0xF10A (fun t => (t.wait, t.lastRel, t.pc, t.reg 1)) =
      some (.awaitingKey, none, 0x200, 0x77) := by decide +kernel
theorem test_ldVxK_release :
    see { State.reset with wait := .awaitingKey, arrivals := [[.keyUp 1, .keyUp 14]] } 0xF10A
      (fun t => (t.reg 1, t.lastRel, t.wait, t.pc)) = some (14, none, .idle, 0x202) := by decide +kernel

/-! ## Timers and events (T94 to T98) -/

theorem test_ldVxDT : see { State.reset with dt := 0x2C } 0xF307 (fun t => (t.reg 3, t.dt)) = some (0x2C, 0x2C) := by decide +kernel
theorem test_ldDTVx : see (regs [(3, 60)]) 0xF315 (fun t => (t.dt, t.st)) = some (60, 0) := by decide +kernel
theorem test_ldSTVx : see (regs [(3, 2)]) 0xF318 (fun t => (t.st, t.soundOn, t.dt)) = some (2, true, 0) := by decide +kernel
theorem test_tick :
    ((({ State.reset with st := 1 } : State).event .tick).dt, (({ State.reset with st := 1 } : State).event .tick).st) =
      (0, 0) := by decide +kernel
theorem test_key_up : (({ State.reset with lastRel := some 2 } : State).event (.keyUp 5)).lastRel = some 5 := by decide +kernel

/-- R216: each event sees what the one before left; a press after a release leaves the key down. -/
theorem test_events_in_order :
    ((State.reset.events [.keyUp 5, .keyUp 9, .keyDown 5]).lastRel, (State.reset.events [.keyUp 5, .keyDown 5]).isDown 5,
      (State.reset.events [.keyDown 5, .keyUp 5]).isDown 5) = (some 9, true, false) := by decide +kernel
/-- P4's schedule: the step sees the tick due before it, and the head of the arrivals is gone. -/
theorem test_arrivals_consumed :
    see { State.reset with dt := 7, arrivals := [[.tick], [.keyUp 3]] } 0xF107 (fun t => (t.reg 1, t.arrivals)) =
      some (6, [[.keyUp 3]]) := by decide +kernel

/-! ## Initialisation (T104, T105) and the host's placing of a word -/

theorem test_load_too_long : State.reset.load 0x200 (List.replicate 3585 1) = .fault (.loadBounds 0x200) := by
  unfold State.load
  rw [if_neg (by rw [List.length_replicate]; decide)]
theorem test_decodeTableWord :
    (decodeTableWord 16 0x812E, decodeTableWord 16 0x5121, decodeTableWord 24 0x812E) = (some (.shl 1 2), none, none) := by
  decide
theorem test_withFetchWord : (State.reset.withFetchWord 16 0xD12F).fetch = some 0xD12F := by decide +kernel

/-! ## Witnesses: for each obligation with hypotheses, values that meet them all together -/

/-- The reset state with the instruction `w` at 0x200. -/
def at200 (w : Nat) : State := State.reset.withFetchWord 16 w

theorem witness_DecodeOfEncodeIsIdentity :
    (Instr.drw 1 2 15).wellFormed = true ∧ (Instr.sys 0x0EF).wellFormed = true := by decide
theorem witness_EncodeOfDecodeIsIdentity : decode 0xFF65 = .ok (.ldVxI 15) := by rfl

/-- PC at the last word there is, with a tick due before the step, and with no event to come. -/
theorem witness_StepRunsDecodedInstruction :
    let s : State := { State.reset with pc := 0xFFE, mem := [(0xFFE, 0x60), (0xFFF, 0x2A)], arrivals := [[.tick]] }
    s.mem.read s.pc.toNat = some 0x60 ∧ s.mem.read (s.pc.toNat + 1) = some 0x2A ∧
      (0x602A : Word).toNat = (0x60 : Byte).toNat * 256 + (0x2A : Byte).toNat ∧ decode 0x602A = .ok (.ldImm 0 0x2A) ∧
      s.arrivals = [.tick] :: [] ∧ ({ s with arrivals := [] } : State).arrivals = [] :=
  ⟨by decide, by decide, by decide, rfl, rfl, rfl⟩
theorem witness_UnrecognizedOpcodeOnlyAdvancesPc :
    (at200 0x5121).fetch = some 0x5121 ∧ decode 0x5121 = .error (.unrecognized 0x5121) := ⟨by decide, rfl⟩
theorem witness_FetchBeyondMemoryMakesNoProgress :
    0xFFF ≤ ({ State.reset with pc := 0xFFF } : State).pc.toNat ∧ State.reset.arrivals = [] := by decide
theorem witness_StepChangesOnlyWhatTheRuleLists :
    (at200 0xF265).fetch = some 0xF265 ∧ decode 0xF265 = .ok (.ldVxI 2) ∧ ∃ t, step (at200 0xF265) = .next t :=
  ⟨by decide, rfl, _, rfl⟩
/-- A step that reports none, and one that reports. -/
theorem witness_ReportingStepChangesNothingElse :
    (∃ t, step (at200 0x1200) = .next t ∧ t.report = .none) ∧
    (∃ t, step (at200 0x00EE) = .next t ∧ t.report = .stackUnderflow) := ⟨⟨_, rfl, rfl⟩, ⟨_, rfl, rfl⟩⟩

theorem witness_StepKeepsMemoryCanonical :
    let s : State := { regs [(0, 7)] with i := 0xFFF, mem := [(0x200, 0xF0), (0x201, 0x55)] }
    s.mem.wf = true ∧ ∃ t, step s = .next t := ⟨by decide, _, rfl⟩
/-- The bounds themselves: V0 + 0xFFF, and a call from the last word. -/
theorem witness_StepKeepsAddressesInRange :
    ({ State.reset with pc := 0x10FE, sp := 16, stack := Vector.replicate 16 0x1000 } : State).AddressesInRange ∧
    ∃ t, step { State.reset with pc := 0x10FE, sp := 16, stack := Vector.replicate 16 0x1000 } = .next t := by
  refine ⟨⟨by decide, ?_⟩, _, rfl⟩
  intro j _
  show (Vector.replicate 16 (0x1000 : Word))[j.val].toNat ≤ 0x1000
  simp
theorem witness_StepKeepsWaitingAtKeyWait :
    ({ at200 0xF10A with wait := .awaitingKey } : State).WaitsAtKeyWait ∧
    ∃ t, step { at200 0xF10A with wait := .awaitingKey } = .next t :=
  ⟨fun _ => ⟨0xF10A, 1, by decide, rfl⟩, _, rfl⟩
theorem witness_MemoriesThatReadAlikeAreEqual :
    Memory.wf [(0x300, 1)] = true ∧ Memory.wf (Memory.put (Memory.put [(0x300, 1)] 0x301 5) 0x301 0) = true ∧
    ∀ a, Memory.read [(0x300, 1)] a = Memory.read (Memory.put (Memory.put [(0x300, 1)] 0x301 5) 0x301 0) a :=
  ⟨by decide, by decide, fun _ => rfl⟩

/-- The largest ROM there is, and the empty one. -/
theorem witness_BootLoadsFontAndRom :
    (List.replicate 3584 (1 : Byte)).length ≤ 3584 ∧ ([] : List Byte).length ≤ 3584 := by
  rw [List.length_replicate]; decide
theorem witness_BootGivesTheResetState : ∃ t, boot [] = .next t := by
  rcases State.load_cases State.created Config.fontBase fontBytes with ⟨_, m, _, h⟩ | ⟨h, _⟩
  · unfold boot; rw [h]; exact ⟨_, rfl⟩
  · exact absurd h (by decide)
/-- A load that just fits, one that is a byte too long, and a ROM that is a byte too long. -/
theorem witness_LoadCopiesAllOrFails :
    0xFFF + [(7 : Byte)].length ≤ 4096 ∧ 0 < [(7 : Byte)].length ∧ 4096 < 0x1000 + [(7 : Byte)].length ∧
    4096 - 0x200 < (List.replicate 3585 (7 : Byte)).length := by
  rw [List.length_replicate]; decide

/-- An empty stack, one with a single free slot, and a full one. -/
theorem witness_CallPushesAndJumps :
    (0 : Fin 16).val = State.reset.sp.val ∧ (15 : Fin 16).val = ({ State.reset with sp := 15 } : State).sp.val ∧
    ({ State.reset with sp := 16 } : State).sp.val = 16 := by decide
/-- One held address, a full stack, and an empty one. -/
theorem witness_ReturnPopsThePc :
    (0 : Fin 16).val + 1 = ({ State.reset with sp := 1 } : State).sp.val ∧
    (15 : Fin 16).val + 1 = ({ State.reset with sp := 16 } : State).sp.val ∧ State.reset.sp.val = 0 := by decide
theorem witness_CallThenReturnComesBack :
    let s : State := { State.reset with sp := 15, mem := [(0x200, 0x23), (0x301, 0xEE)] }
    s.fetch = some 0x2300 ∧ decode 0x2300 = .ok (.call 0x300) ∧ s.sp.val < 16 ∧
      s.mem.read (0x300 : Addr12).toNat = some 0x00 ∧ s.mem.read ((0x300 : Addr12).toNat + 1) = some 0xEE :=
  ⟨by decide, rfl, by decide, by decide, by decide⟩

/-- The premises that name values: x and y apart, and each of them VF. -/
theorem witness_SubtractSetsNoBorrowFirst :
    let s := regs [(1, 10), (15, 3)]
    (s.reg 1).toNat = 10 ∧ (s.reg VF).toNat = 3 ∧ 1 = (if 10 ≥ 3 then 1 else 0) ∧ 0 = (if 3 ≥ 10 then 1 else 0) ∧
      (1 : Reg) ≠ VF ∧ (2 : Reg) ≠ VF := by decide
theorem witness_AddSetsCarryLast : (1 : Reg) ≠ VF := by decide
theorem witness_ShiftsPutTheLostBitInVF : (0 : Reg) ≠ VF ∧ (15 : Reg) = VF := by decide
/-- An instruction that writes no flag, and one that does, at a state it does not report in. -/
theorem witness_OnlyFlagWritersWriteVF :
    (∃ t, exec (.ldVxI 14) State.reset = .next t ∧ xField (.ldVxI 14) ≠ some VF ∧ writesFlag (.ldVxI 14) = false) ∧
    (∃ t, exec (.addReg 0 15) State.reset = .next t ∧ xField (.addReg 0 15) ≠ some VF ∧
      writesFlag (.addReg 0 15) = true ∧ t.reportLog = State.reset.reportLog) :=
  ⟨⟨_, rfl, by decide, rfl⟩, ⟨_, rfl, by decide, rfl, rfl⟩⟩
theorem witness_VFIsReadOnlyWhenNamed :
    xField (.addReg 0 1) ≠ some VF ∧ yField (.addReg 0 1) ≠ some VF ∧
    State.reset.SameButVF (State.reset.setReg VF 1) ∧ (∃ s', exec (.addReg 0 1) State.reset = .next s') ∧
    ∃ t', exec (.addReg 0 1) (State.reset.setReg VF 1) = .next t' :=
  ⟨by decide, by decide, ⟨rfl, fun _ h => State.reg_setReg_ne _ _ h⟩, ⟨_, rfl⟩, ⟨_, rfl⟩⟩

/-- The last range that fits, for three bytes, sixteen, and one. -/
theorem witness_range_fits :
    ({ State.reset with i := 0xFFD } : State).RangeOk 3 ∧
    ({ State.reset with i := 0xFF0 } : State).RangeOk ((15 : Reg).val + 1) ∧
    ({ State.reset with i := 0xFFF } : State).RangeOk ((0 : Reg).val + 1) := by
  refine ⟨.inr ?_, .inr ?_, .inr ?_⟩ <;> decide
theorem witness_DecimalDigitsAreStored : ({ State.reset with i := 0xFFD } : State).RangeOk 3 := witness_range_fits.1
theorem witness_RegistersAreStored :
    ({ State.reset with i := 0xFF0 } : State).RangeOk ((15 : Reg).val + 1) := witness_range_fits.2.1
theorem witness_RegistersAreLoaded :
    ({ State.reset with i := 0xFFF } : State).RangeOk ((0 : Reg).val + 1) := witness_range_fits.2.2
/-- The first ranges that do not fit. -/
theorem witness_OutOfRangeAccessIsSuppressed :
    ¬({ State.reset with i := 0xFFE } : State).RangeOk 3 ∧
    ¬({ State.reset with i := 0xFF1 } : State).RangeOk ((15 : Reg).val + 1) ∧
    ¬({ State.reset with i := 0xFFF } : State).RangeOk ((2 : Nibble).toNat) := by
  refine ⟨?_, ?_, ?_⟩ <;> (unfold State.RangeOk; decide)
theorem witness_StoreThenLoadRestoresRegisters :
    let s : State := { regs [(0, 1), (1, 2)] with i := 0x300 }
    ∃ t w, s.RangeOk ((1 : Reg).val + 1) ∧ exec (.ldIVx 1) s = .next t ∧ (t.setReg 1 9).mem = t.mem ∧
      (t.setReg 1 9).i = s.i ∧ exec (.ldVxI 1) (t.setReg 1 9) = .next w ∧ (0 : Reg) ≤ 1 :=
  ⟨_, _, .inr (by decide), rfl, rfl, rfl, rfl, by decide⟩
/-- T72 with the PC already there. -/
theorem witness_StoreIsSeenByTheNextFetch :
    let s : State := { regs [(0, 0x12)] with i := 0x200 }
    s.RangeOk ((1 : Reg).val + 1) ∧ 1 ≤ (1 : Reg).val ∧ (∃ t, exec (.ldIVx 1) s = .next t) ∧ s.pc = s.i :=
  ⟨.inr (by decide), by decide, ⟨_, rfl⟩, rfl⟩

/-- No row whatever I holds, and one row from the last byte. -/
theorem witness_DrawInvertsCoveredPixels :
    ({ State.reset with i := 0x1234 } : State).RangeOk (0 : Nibble).toNat ∧
    ({ State.reset with i := 0xFFF } : State).RangeOk (1 : Nibble).toNat := ⟨.inl rfl, .inr (by decide)⟩
theorem witness_DrawingTwiceRestoresTheFramebuffer :
    let s : State := { State.reset with i := 0x050 }
    ∃ t w, s.RangeOk (5 : Nibble).toNat ∧ exec (.drw 0 1 5) s = .next t ∧ t.fb = t.fb ∧ t.mem = s.mem ∧ t.i = s.i ∧
      t.reg 0 = s.reg 0 ∧ t.reg 1 = s.reg 1 ∧ exec (.drw 0 1 5) t = .next w :=
  ⟨_, _, .inr (by decide), rfl, rfl, rfl, rfl, State.reg_setReg_ne _ _ (by decide), State.reg_setReg_ne _ _ (by decide),
    rfl⟩

theorem witness_KeySkipsTestOneKey : (10 : Key).val = ((regs [(4, 0x1A)]).reg 4).toNat % 16 := by decide
/-- The three states of the key wait. -/
theorem witness_KeyWaitStateMachine :
    State.reset.wait = .idle ∧
    (({ State.reset with wait := .awaitingKey } : State).wait = .awaitingKey ∧
      ({ State.reset with wait := .awaitingKey } : State).lastRel = none) ∧
    (({ State.reset with wait := .awaitingKey, lastRel := some 15 } : State).wait = .awaitingKey ∧
      ({ State.reset with wait := .awaitingKey, lastRel := some 15 } : State).lastRel = some 15) := by decide
theorem witness_KeyWaitHoldsWithoutRelease :
    let s : State := { at200 0xF10A with wait := .awaitingKey, arrivals := [[.keyDown 3], [.tick]] }
    s.wait = .awaitingKey ∧ s.lastRel = none ∧ s.NoReleaseArrives ∧ s.fetch = some 0xF10A ∧
      decode 0xF10A = .ok (.ldVxK 1) :=
  ⟨rfl, rfl, by simp [State.NoReleaseArrives], by decide, rfl⟩
/-- An instruction outside every exception, and an event outside each. -/
theorem witness_OwnersAloneWriteTheirState :
    (∃ t, exec (.jp 0x300) State.reset = .next t) ∧ (∀ x, Instr.jp 0x300 ≠ .ldVxK x) ∧
    (∀ x, Instr.jp 0x300 ≠ .ldDTVx x) ∧ (∀ x, Instr.jp 0x300 ≠ .ldSTVx x) ∧ Instr.jp 0x300 ≠ .cls ∧
    (∀ x y n, Instr.jp 0x300 ≠ .drw x y n) ∧ Event.fbRead ≠ .tick ∧ (∀ k, Event.fbRead ≠ .keyUp k) ∧
    (∀ k, Event.fbRead ≠ .keyDown k) ∧ ∃ t, State.reset.load 0x300 [7] = .next t :=
  ⟨⟨_, rfl⟩, by simp, by simp, by simp, by simp, by simp, by simp, by simp, by simp, _, rfl⟩
/-- Two states with one held address that differ in a slot above it. -/
theorem witness_DeadStackSlotsAreUnobservable :
    ({ State.reset with sp := 1 } : State).SameButDeadSlots
      { State.reset with sp := 1, stack := State.reset.stack.set 1 0x300 } ∧
    (∃ t, step { State.reset with sp := 1 } = .next t) ∧
    ∃ t, step { State.reset with sp := 1, stack := State.reset.stack.set 1 0x300 } = .next t := by
  refine ⟨⟨rfl, ?_⟩, ⟨_, rfl⟩, ⟨_, rfl⟩⟩
  intro j h
  show (State.reset.stack.set 1 (0x300 : Word))[j.val] = State.reset.stack[j.val]
  rw [Vector.getElem_set, if_neg]
  have : j.val < 1 := h
  omega
theorem witness_SoundTimerIsReadByNoInstruction :
    State.reset.SameButST { State.reset with st := 5 } ∧ (∃ t, step State.reset = .next t) ∧
    ∃ t, step { State.reset with st := 5 } = .next t := ⟨rfl, ⟨_, rfl⟩, ⟨_, rfl⟩⟩

/-- One list due, no list due, and later events that release no key and leave key 14 alone. -/
theorem witness_EventsActInOrderBeforeTheStep :
    ({ State.reset with arrivals := [[.tick], []] } : State).arrivals = [.tick] :: [[]] ∧ State.reset.arrivals = [] ∧
    (∀ j, Event.keyUp j ∉ [Event.keyDown 3, .tick]) ∧ Event.keyUp 14 ∉ [Event.keyUp 3, .keyDown 3, .tick] ∧
    Event.keyDown 14 ∉ [Event.keyUp 3, .keyDown 3, .tick] := by
  refine ⟨rfl, rfl, ?_, ?_, ?_⟩ <;> simp
/-- T92's two releases, with a press after them. -/
theorem witness_KeyWaitTakesTheLastRelease :
    let s : State := { at200 0xF10A with wait := .awaitingKey, arrivals := [[.keyUp 1, .keyUp 2, .keyDown 3], [.tick]] }
    s.wait = .awaitingKey ∧ s.fetch = some 0xF10A ∧ decode 0xF10A = .ok (.ldVxK 1) ∧
      s.arrivals = ([.keyUp 1] ++ .keyUp 2 :: [.keyDown 3]) :: [[.tick]] ∧ ∀ j, Event.keyUp j ∉ [Event.keyDown 3] :=
  ⟨rfl, by decide, rfl, rfl, by simp⟩

end Sys2Proof.Tests
end

section
/-! PROOFS. The initialisation sequence (70_reset_and_hazards.md R243): what it answers and what memory it leaves
(10_state.md R29). -/

namespace Sys2Proof.Machine

theorem fontBytes_length : fontBytes.length = 80 := rfl

/-- A load whose bytes all lie below 4096 places them (R52). -/
theorem State.load_of_le (s : State) {offset : Nat} {bs : List Byte} (h : offset + bs.length ≤ Config.memSize) :
    ∃ m, s.mem.writeBytes offset bs = some m ∧ s.load offset bs = .next { s with mem := m } := by
  obtain ⟨_, hload⟩ | ⟨hlt, _⟩ := s.load_cases offset bs
  · exact hload
  · omega

/-- The two loads of the initialisation sequence: the font always fits, so `boot` ends as the load of the ROM into the
memory that holds the font does (R243). -/
theorem boot_eq_load_rom (rom : List Byte) :
    ∃ m, Memory.zero.writeBytes Config.fontBase fontBytes = some m ∧
      boot rom = ({ State.created with mem := m } : State).load Config.romBase rom := by
  obtain ⟨m, hm, hload⟩ := State.created.load_of_le (offset := Config.fontBase) (bs := fontBytes) (by decide)
  exact ⟨m, hm, by simp only [boot, hload]⟩

/-- The memory after the font: its bytes at 0x050..0x09F, zero elsewhere. -/
theorem Memory.get_zero_writeBytes_font {m : Memory}
    (h : Memory.zero.writeBytes Config.fontBase fontBytes = some m) (a : Nat) :
    m.get a = if 0x050 ≤ a ∧ a ≤ 0x09F then fontBytes.getD (a - 0x050) 0 else 0 := by
  have hrange : a < Config.fontBase + fontBytes.length ↔ a ≤ 0x09F := by
    rw [fontBytes_length]; exact Nat.lt_succ_iff
  simp only [Memory.get_writeBytes h, Memory.get_zero, hrange]

/-- Settles O18: the ROM's load overwrites no font byte, since 0x09F < 0x200. -/
theorem bootLoadsFontAndRom : Obligations.BootLoadsFontAndRom := by
  intro rom hrom
  obtain ⟨m, hfont, hboot⟩ := boot_eq_load_rom rom
  obtain ⟨m', hm', hload⟩ := State.load_of_le ({ State.created with mem := m } : State)
    (show Config.romBase + rom.length ≤ Config.memSize by simp only [Config.romBase, Config.memSize]; omega)
  refine ⟨_, hboot.trans hload, fontBytes_length, fun a ha => ?_⟩
  rw [Memory.read_eq, if_pos ha, Memory.get_writeBytes hm', Memory.get_zero_writeBytes_font hfont]
  congr 1
  by_cases hglyph : 0x050 ≤ a ∧ a ≤ 0x09F
  · have hnotRom : ¬(0x200 ≤ a ∧ a < 0x200 + rom.length) := by omega
    rw [if_neg hnotRom, if_pos hglyph, if_pos hglyph]
  · rw [if_neg hglyph, if_neg hglyph]

end Sys2Proof.Machine
end

section
/-! PROOFS. The opcode table (30_encoding.md R84): what a row's condition asks of an opcode's fields, and that the
decoder, which goes by the high nibble, gives the first row whose condition holds. -/

namespace Sys2Proof.Machine

/-! ## A row's condition as numbers of the opcode's fields -/

theorem and_group (op : Word) : op &&& 0xF000#16 = encAddr (opGroup op) 0 := by
  have h := encAddr_and (opGroup op) (opNNN op)
  rwa [encAddr_fields] at h

theorem and_group_n (op : Word) : op &&& 0xF00F#16 = encRegReg (opGroup op) 0 0 (opN op) := by
  have h := encRegReg_and (opGroup op) (opX op) (opY op) (opN op)
  rwa [encRegReg_fields] at h

theorem and_group_nn (op : Word) : op &&& 0xF0FF#16 = encRegImm (opGroup op) 0 (opNN op) := by
  have h := encRegImm_and (opGroup op) (opX op) (opNN op)
  rwa [encRegImm_fields] at h

/-- Mask 0xF000 fixes the group. -/
theorem and_group_eq_iff {op c : Word} (hc : c &&& 0xF000#16 = c) :
    op &&& 0xF000#16 = c ↔ (opGroup op).toNat = c.toNat / 4096 := by
  rw [and_group] at hc
  rw [and_group, ← toNat_opGroup, BitVec.toNat_inj]
  constructor
  · intro h
    rw [← h, opGroup_encAddr]
  · intro hg
    rw [hg, hc]

/-- Mask 0xF00F fixes the group and n. -/
theorem and_group_n_eq_iff {op c : Word} (hc : c &&& 0xF00F#16 = c) :
    op &&& 0xF00F#16 = c ↔ (opGroup op).toNat = c.toNat / 4096 ∧ (opN op).toNat = c.toNat % 16 := by
  rw [and_group_n] at hc
  rw [and_group_n, ← toNat_opGroup, ← toNat_opN, BitVec.toNat_inj, BitVec.toNat_inj]
  constructor
  · intro h
    rw [← h, opGroup_encRegReg, opN_encRegReg]
    exact ⟨rfl, rfl⟩
  · rintro ⟨hg, hn⟩
    rw [hg, hn, hc]

/-- Mask 0xF0FF fixes the group and nn. -/
theorem and_group_nn_eq_iff {op c : Word} (hc : c &&& 0xF0FF#16 = c) :
    op &&& 0xF0FF#16 = c ↔ (opGroup op).toNat = c.toNat / 4096 ∧ (opNN op).toNat = c.toNat % 256 := by
  rw [and_group_nn] at hc
  rw [and_group_nn, ← toNat_opGroup, ← toNat_opNN, BitVec.toNat_inj, BitVec.toNat_inj]
  constructor
  · intro h
    rw [← h, opGroup_encRegImm, opNN_encRegImm]
    exact ⟨rfl, rfl⟩
  · rintro ⟨hg, hnn⟩
    rw [hg, hnn, hc]

/-! ## The first row that fits, and the rows of one group -/

/-- The instruction of the first of `rows` whose condition holds of `op`. -/
def firstFit (op : Word) (rows : List OpcodeRow) : Option Instr :=
  (rows.find? fun r => decide (op &&& r.mask = r.code)).map (·.instr op)

@[simp] theorem firstFit_nil (op : Word) : firstFit op [] = none := rfl

@[simp] theorem firstFit_cons (op : Word) (r : OpcodeRow) (rows : List OpcodeRow) :
    firstFit op (r :: rows) = if op &&& r.mask = r.code then some (r.instr op) else firstFit op rows := by
  unfold firstFit
  by_cases h : op &&& r.mask = r.code <;> simp [h]

/-- The rows of one group, in the table's order. -/
def groupRows (g : Nat) : List OpcodeRow := opcodeRows.filter fun r => decide (r.code.toNat / 4096 = g)

/-- Every row's mask keeps the whole group. -/
theorem opGroup_mask_of_mem : ∀ r ∈ opcodeRows, opGroup r.mask = 0xF#4 := by
  simp only [opcodeRows, List.forall_mem_append, List.forall_mem_cons]
  decide

theorem opGroup_and (a b : Word) : opGroup (a &&& b) = opGroup a &&& opGroup b := BitVec.extractLsb'_and

/-- So a row fits only words of its own group. -/
theorem group_of_fits {op : Word} {r : OpcodeRow} (hr : r ∈ opcodeRows) (h : op &&& r.mask = r.code) :
    r.code.toNat / 4096 = (opGroup op).toNat := by
  rw [← h, ← toNat_opGroup, opGroup_and, opGroup_mask_of_mem r hr, nibble_and_ones]

/-- The rows of the other groups may be passed over. -/
theorem firstFit_opcodeRows (op : Word) : firstFit op opcodeRows = firstFit op (groupRows (opGroup op).toNat) := by
  unfold firstFit groupRows
  rw [List.find?_filter]
  refine congrArg _ (List.find?_congr fun r hr => ?_)
  simpa using group_of_fits hr

/-! ## What the decoder does in each group -/

theorem requireN0_eq_ite (op : Word) (i : Instr) :
    requireN0 op i = if (opN op).toNat = 0 then some i else none := by
  simp [requireN0, ← BitVec.toNat_inj]

theorem some_decodeGroup0_eq_firstFit {op : Word} (hg : (opGroup op).toNat = 0x0) :
    some (decodeGroup0 op) = firstFit op (groupRows 0x0) := by
  have hones : op &&& 0xFFFF#16 = op := BitVec.and_allOnes
  simp [groupRows, opcodeRows, decodeGroup0, apply_ite some, hones, and_group_eq_iff, hg]

theorem decodeGroup8_eq_firstFit {op : Word} (hg : (opGroup op).toNat = 0x8) :
    decodeGroup8 op = firstFit op (groupRows 0x8) := by
  have hrows : groupRows 0x8 = (opcodeRows.drop 10).take 9 := rfl
  rw [hrows, decodeGroup8]
  split <;> simp_all [opcodeRows, and_group_n_eq_iff]

theorem decodeGroupE_eq_firstFit {op : Word} (hg : (opGroup op).toNat = 0xE) :
    decodeGroupE op = firstFit op (groupRows 0xE) := by
  have hrows : groupRows 0xE = (opcodeRows.drop 24).take 2 := rfl
  rw [hrows, decodeGroupE]
  split <;> simp_all [opcodeRows, and_group_nn_eq_iff]

theorem decodeGroupF_eq_firstFit {op : Word} (hg : (opGroup op).toNat = 0xF) :
    decodeGroupF op = firstFit op (groupRows 0xF) := by
  have hrows : groupRows 0xF = (opcodeRows.drop 26).take 9 := rfl
  rw [hrows, decodeGroupF]
  split <;> simp_all [opcodeRows, and_group_nn_eq_iff]

/-- Going by the high nibble loses no row: groups 0, 8, E and F have decoders of their own, the one row of groups 5 and
9 asks for n = 0, and the one row of every other group asks for no more than the group. -/
theorem selectInstr_eq_firstFit (op : Word) : selectInstr op = firstFit op opcodeRows := by
  rw [firstFit_opcodeRows]
  unfold selectInstr
  split
  case h_1 hg => rw [hg]; exact some_decodeGroup0_eq_firstFit hg
  case h_6 hg | h_10 hg => simp [groupRows, opcodeRows, requireN0_eq_ite, and_group_n_eq_iff, hg]
  case h_9 hg => rw [hg]; exact decodeGroup8_eq_firstFit hg
  case h_15 hg => rw [hg]; exact decodeGroupE_eq_firstFit hg
  case h_16 =>
    have hg : (opGroup op).toNat = 0xF := by
      have := (opGroup op).isLt
      grind
    rw [hg]; exact decodeGroupF_eq_firstFit hg
  all_goals
    next hg => simp [groupRows, opcodeRows, and_group_eq_iff, hg]

/-- Settles O3: the decoder's dispatch on the group only passes over rows that cannot fit. -/
theorem decoderTakesFirstMatchingRow : Obligations.DecoderTakesFirstMatchingRow := by
  intro op
  rw [decode, selectInstr_eq_firstFit, firstFit]
  cases opcodeRows.find? fun r => decide (op &&& r.mask = r.code) with
  | none => rfl
  | some r => rfl

end Sys2Proof.Machine
end

section
/-! PROOFS. Jumps and skips (41_flow.md): a new PC leaves the rest of the state alone, and a skip advances PC by 2
exactly when the condition it tests holds. -/

namespace Sys2Proof.Machine

/-! ## The frame of a jump and of a skip -/

theorem State.onlyChanged_refl (s : State) (parts : List Part) : s.OnlyChanged s parts := by
  intro p _
  cases p <;> rfl

/-- A jump changes PC alone (R113, R115). -/
theorem State.onlyChanged_jump (s : State) (w : Word) : s.OnlyChanged (s.jump w) [.pc] := by
  intro p hp
  cases p with
  | pc => exact absurd (List.mem_singleton_self _) hp
  | _ => rfl

/-- A skip changes PC alone, whether it is taken or not (R110). -/
theorem State.onlyChanged_skipIf (s : State) (c : Bool) : s.OnlyChanged (s.skipIf c) [.pc] := by
  cases c with
  | false => exact s.onlyChanged_refl _
  | true => exact s.onlyChanged_jump _

/-! ## The PC a skip or a jump leaves -/

/-- PC after a skip, the condition read as the proposition it tests (R110; mod 65536, D12). -/
theorem State.toNat_skipIf_pc (s : State) {c : Bool} {P : Prop} [Decidable P] (h : c = true ↔ P) :
    (s.skipIf c).pc.toNat = if P then (s.pc.toNat + 2) % 65536 else s.pc.toNat := by
  simp only [State.skipIf_pc, h]
  split
  · exact BitVec.toNat_add _ _
  · rfl

/-- Equality of bytes is equality of the unsigned values (R116, R117). -/
theorem byte_beq_iff (a b : Byte) : (a == b) = true ↔ a.toNat = b.toNat := by
  rw [beq_iff_eq, BitVec.toNat_inj]

theorem byte_bne_iff (a b : Byte) : (a != b) = true ↔ a.toNat ≠ b.toNat := by
  rw [bne_iff_ne, ne_eq, ne_eq, BitVec.toNat_inj]

/-- nnn + V0 is at most 0xFFF + 0xFF: the 16-bit sum of Bnnn never wraps (R115). -/
theorem toNat_addrOperand_add_byteOperand (nnn : Addr12) (b : Byte) :
    (addrOperand nnn + byteOperand b).toNat = nnn.toNat + b.toNat := by
  have hn := nnn.isLt
  have hb := b.isLt
  rw [BitVec.toNat_add, toNat_addrOperand, toNat_byteOperand]
  omega

/-! ## The instructions -/

/-- Settles O21: each target is read from its operands in 16 bits, and a jump changes PC alone. -/
theorem jumpsSetThePc : Obligations.JumpsSetThePc := by
  intro s nnn
  refine ⟨⟨s, rfl, s.onlyChanged_refl _⟩, ⟨_, rfl, ?_, s.onlyChanged_jump _⟩, ⟨_, rfl, ?_, s.onlyChanged_jump _⟩⟩
  · exact toNat_addrOperand nnn
  · exact toNat_addrOperand_add_byteOperand nnn (s.reg 0)

/-- Settles O22: the four are one skip, each on its own unsigned comparison. -/
theorem skipsCompareAndAdvance : Obligations.SkipsCompareAndAdvance := by
  intro s x y nn
  refine ⟨⟨_, rfl, s.onlyChanged_skipIf _, ?_⟩, ⟨_, rfl, s.onlyChanged_skipIf _, ?_⟩,
    ⟨_, rfl, s.onlyChanged_skipIf _, ?_⟩, ⟨_, rfl, s.onlyChanged_skipIf _, ?_⟩⟩
  · exact s.toNat_skipIf_pc (byte_beq_iff (s.reg x) nn)
  · exact s.toNat_skipIf_pc (byte_bne_iff (s.reg x) nn)
  · exact s.toNat_skipIf_pc (byte_beq_iff (s.reg x) (s.reg y))
  · exact s.toNat_skipIf_pc (byte_bne_iff (s.reg x) (s.reg y))

end Sys2Proof.Machine
end

section
/-! PROOFS. Register load, add-immediate and logic (42_alu.md R131 to R136): each is one register write, whose frame is
proved once and whose value is read back by `reg_setReg_same`. -/

namespace Sys2Proof.Machine

/-- A register write changes that register alone (R20); VF is no exception. -/
theorem State.onlyChanged_setReg (s : State) {x : Reg} {parts : List Part} (h : .reg x ∈ parts) (b : Byte) :
    s.OnlyChanged (s.setReg x b) parts := by
  intro p hp
  cases p with
  | reg y =>
    have hy : y ≠ x := by
      rintro rfl
      exact hp h
    exact s.reg_setReg_ne b hy
  | _ => rfl

/-- Settles O26: the immediate, or the 8-bit sum, is what the one register write leaves. -/
theorem immediateLoadAndAdd : Obligations.ImmediateLoadAndAdd := by
  intro s x nn
  have frame := s.onlyChanged_setReg (List.mem_singleton_self (Part.reg x))
  refine ⟨⟨_, rfl, ?_, frame _⟩, ⟨_, rfl, ?_, frame _⟩⟩
  · exact s.reg_setReg_same x nn
  · rw [State.reg_setReg_same]
    exact BitVec.toNat_add _ _

/-- Settles O27: the copy and the three bitwise operations are each one register write. -/
theorem copyAndLogicBitByBit : Obligations.CopyAndLogicBitByBit := by
  intro s x y
  have frame := s.onlyChanged_setReg (List.mem_singleton_self (Part.reg x))
  refine ⟨⟨_, rfl, ?_, frame _⟩, ⟨_, rfl, frame _, fun j => ?_⟩, ⟨_, rfl, frame _, fun j => ?_⟩,
    ⟨_, rfl, frame _, fun j => ?_⟩⟩
  · exact s.reg_setReg_same x (s.reg y)
  · rw [State.reg_setReg_same, BitVec.getLsbD_or]
  · rw [State.reg_setReg_same, BitVec.getLsbD_and]
  · rw [State.reg_setReg_same, BitVec.getLsbD_xor]

end Sys2Proof.Machine
end

section
/-! PROOFS. The instructions that write I (43_index_memory.md R150 to R152): I is the one part they change, and its new
value is read in 16 bits. -/

namespace Sys2Proof.Machine

/-- A write to I changes I alone, no flag either (R151). -/
theorem State.onlyChanged_setI (s : State) (w : Word) : s.OnlyChanged { s with i := w } [.i] := by
  intro p hp
  cases p with
  | i => exact absurd (List.mem_singleton_self _) hp
  | _ => rfl

/-- Settles O34: each of the three is one write to I; the addition wraps, the glyph's address takes the whole byte. -/
theorem indexRegisterUpdates : Obligations.IndexRegisterUpdates := by
  intro s x nnn
  refine ⟨⟨_, rfl, ?_, s.onlyChanged_setI _⟩, ⟨_, rfl, ?_, s.onlyChanged_setI _⟩, ⟨_, rfl, ?_, s.onlyChanged_setI _⟩⟩
  · exact toNat_addrOperand nnn
  · rw [BitVec.toNat_add, toNat_byteOperand]
  · rw [toNat_glyphAddress, Nat.mul_comm]

end Sys2Proof.Machine
end

section
/-! PROOFS. Clearing the framebuffer (44_display.md R161): a new framebuffer leaves every part but the pixels alone. -/

namespace Sys2Proof.Machine

/-- A new framebuffer changes pixels and nothing else: VF is not written, nor any other register (R161). -/
theorem State.frame_setFb (s : State) (fb : Framebuffer) :
    s.Frame { s with fb := fb } (fun p => ∃ y x, p = .pixel y x) := by
  intro p hp
  cases p with
  | pixel y x => exact absurd ⟨y, x, rfl⟩ hp
  | _ => rfl

/-- Settles O41: 00E0 is one write of the framebuffer, and the grid it writes has no pixel on. -/
theorem clearTurnsEveryPixelOff : Obligations.ClearTurnsEveryPixelOff := by
  intro s
  exact ⟨_, rfl, Framebuffer.pixel_cleared, s.frame_setFb Framebuffer.cleared⟩

end Sys2Proof.Machine
end

section
/-! PROOFS. The timer instructions (46_timers.md R181 to R183): each copies one byte between a register and a timer. The
frame of a write to DT and to ST, and the reading of `sound_on` as a number, are stated once. -/

namespace Sys2Proof.Machine

/-- A write to DT changes DT alone: ST is untouched (R182). -/
theorem State.onlyChanged_setDt (s : State) (b : Byte) : s.OnlyChanged { s with dt := b } [.dt] := by
  intro p hp
  cases p with
  | dt => exact absurd (List.mem_singleton_self _) hp
  | _ => rfl

/-- A write to ST changes ST alone: DT is untouched (R183). -/
theorem State.onlyChanged_setSt (s : State) (b : Byte) : s.OnlyChanged { s with st := b } [.st] := by
  intro p hp
  cases p with
  | st => exact absurd (List.mem_singleton_self _) hp
  | _ => rfl

/-- `sound_on` follows ST (R183). -/
theorem State.soundOn_iff (s : State) : s.soundOn = true ↔ s.st.toNat ≠ 0 := byte_bne_iff s.st 0

/-- Settles O47: the read is one register write, the two writes each one timer write. -/
theorem timerReadsAndWrites : Obligations.TimerReadsAndWrites := by
  intro s x
  refine ⟨⟨_, rfl, ?_, s.onlyChanged_setReg (List.mem_singleton_self _) _⟩, ⟨_, rfl, rfl, s.onlyChanged_setDt _⟩,
    ⟨_, rfl, rfl, s.onlyChanged_setSt _, State.soundOn_iff _⟩⟩
  exact s.reg_setReg_same x s.dt

end Sys2Proof.Machine
end

section
/-! PROOFS. The tick and the key events (60_exceptions.md R217, R219, R220): each is one or two writes of one part, so its
frame is those of the writes, one after the other. -/

namespace Sys2Proof.Machine

/-! ## Frames in sequence -/

theorem State.SameAt.trans {s t u : State} {p : Part} (hst : s.SameAt t p) (htu : t.SameAt u p) : s.SameAt u p := by
  cases p <;> exact Eq.trans htu hst

/-- Two changes in sequence change what the one or the other does. -/
theorem State.OnlyChanged.trans {s t u : State} {ps qs : List Part} (hst : s.OnlyChanged t ps)
    (htu : t.OnlyChanged u qs) : s.OnlyChanged u (ps ++ qs) := by
  intro p hp
  obtain ⟨hps, hqs⟩ := not_or.mp (mt List.mem_append.mpr hp)
  exact (hst p hps).trans (htu p hqs)

/-! ## The flag of one key, and LASTREL -/

/-- A write of key k's flag is read back at k alone. -/
theorem State.isDown_setKey (s : State) (k j : Key) (b : Bool) :
    ({ s with keys := s.keys.set k.val b } : State).isDown j = if j = k then b else s.isDown j := by
  simp only [State.isDown, Vector.getElem_set, eq_comm (a := j), Fin.ext_iff]

theorem State.isDown_keyDown (s : State) (k j : Key) : (s.keyDown k).isDown j = if j = k then true else s.isDown j :=
  s.isDown_setKey k j true

theorem State.isDown_keyUp (s : State) (k j : Key) : (s.keyUp k).isDown j = if j = k then false else s.isDown j :=
  s.isDown_setKey k j false

/-- A write of key k's flag changes no other key's flag, and nothing else (R219). -/
theorem State.onlyChanged_setKey (s : State) (k : Key) (b : Bool) :
    s.OnlyChanged { s with keys := s.keys.set k.val b } [.key k] := by
  intro p hp
  cases p with
  | key j =>
    have hj : j ≠ k := by
      rintro rfl
      exact hp (List.mem_singleton_self _)
    exact (s.isDown_setKey k j b).trans (if_neg hj)
  | _ => rfl

/-- A published release changes LASTREL alone: what waits for it is left to the step (R220). -/
theorem State.onlyChanged_setLastRel (s : State) (r : Option Key) : s.OnlyChanged { s with lastRel := r } [.lastRel] := by
  intro p hp
  cases p with
  | lastRel => exact absurd (List.mem_singleton_self _) hp
  | _ => rfl

/-! ## The events -/

theorem State.onlyChanged_tick (s : State) : s.OnlyChanged s.tick [.dt, .st] :=
  (s.onlyChanged_setDt (countDown s.dt)).trans (State.onlyChanged_setSt _ (countDown s.st))

theorem State.onlyChanged_keyUp (s : State) (k : Key) : s.OnlyChanged (s.keyUp k) [.key k, .lastRel] :=
  (s.onlyChanged_setKey k false).trans (State.onlyChanged_setLastRel _ (some k))

/-- The clamp as R217 words it: the countdown stays at 0, and goes down by 1 from anything above. -/
theorem toNat_countDown_eq_ite (b : Byte) : (countDown b).toNat = if b.toNat > 0 then b.toNat - 1 else 0 := by
  rw [toNat_countDown]
  split <;> omega

/-- Settles O48: the tick is one clamped countdown of each timer. -/
theorem tickLowersBothTimers : Obligations.TickLowersBothTimers := by
  intro s
  exact ⟨toNat_countDown_eq_ite s.dt, toNat_countDown_eq_ite s.st, s.onlyChanged_tick⟩

/-- Settles O49: both events are one write of the key's flag, which asks nothing of WAIT or of the flag before; a release
publishes the key as well. -/
theorem keyEventsSetFlagAndSlot : Obligations.KeyEventsSetFlagAndSlot := by
  intro s k
  refine ⟨⟨?_, s.onlyChanged_setKey k true⟩, ?_, s.keyUp_lastRel k, s.onlyChanged_keyUp k⟩
  · exact (s.isDown_keyDown k k).trans (if_pos rfl)
  · exact (s.isDown_keyUp k k).trans (if_pos rfl)

end Sys2Proof.Machine
end

section
/-! PROOFS. The decoder and the encoder (30_encoding.md R82 to R87): the one is the other's inverse on well-formed
instructions, and the words the decoder rejects are those of R85's list. -/

namespace Sys2Proof.Machine

theorem decode_eq_ok_iff {op : Word} {i : Instr} : decode op = .ok i ↔ selectInstr op = some i := by
  unfold decode
  cases selectInstr op <;> simp

theorem decode_eq_error_iff {op : Word} : decode op = .error (.unrecognized op) ↔ selectInstr op = none := by
  unfold decode
  cases selectInstr op <;> simp

/-! ## Decoding an encoded word -/

/-- Group 0 reads back as 0nnn exactly because the words 00E0 and 00EE are no operands of it (R84 row 3, R86). -/
theorem decodeGroup0_encAddr {nnn : Addr12} (h : sysOperandOk nnn = true) :
    decodeGroup0 (encAddr 0#4 nnn) = .sys nnn := by
  obtain ⟨hcls, hret⟩ : nnn ≠ 0x0E0 ∧ nnn ≠ 0x0EE := by simpa [sysOperandOk] using h
  have hne (c : Word) (hc : nnn ≠ opNNN c) : encAddr 0#4 nnn ≠ c := by
    rintro rfl
    exact hc (opNNN_encAddr 0#4 nnn).symm
  rw [decodeGroup0, if_neg (hne 0x00E0#16 hcls), if_neg (hne 0x00EE#16 hret), opNNN_encAddr]

theorem selectInstr_encode (i : Instr) (h : i.wellFormed = true) : selectInstr (encode i) = some i := by
  cases i with
  | cls | ret => rfl
  | sys nnn => simp [selectInstr, encode, decodeGroup0_encAddr h]
  | jp | call | ldI | jpV0 => simp [selectInstr, encode]
  | seImm | sneImm | ldImm | addImm | rnd => simp [selectInstr, encode]
  | drw => simp [selectInstr, encode]
  | seReg | sneReg => simp [selectInstr, encode, requireN0]
  | ldReg | orReg | andReg | xorReg | addReg | subReg | shr | subnReg | shl =>
    simp [selectInstr, encode, decodeGroup8]
  | skp | sknp => simp [selectInstr, encode, decodeGroupE]
  | ldVxDT | ldVxK | ldDTVx | ldSTVx | addI | ldF | ldB | ldIVx | ldVxI =>
    simp [selectInstr, encode, decodeGroupF]

/-- Settles O1: the decoder asks of a word the fields its encoder has put there. -/
theorem decodeOfEncodeIsIdentity : Obligations.DecodeOfEncodeIsIdentity := fun i h =>
  decode_eq_ok_iff.2 (selectInstr_encode i h)

/-! ## Encoding a decoded word -/

/-- `i` is the well-formed instruction whose word is `op`. -/
def IsWordOf (op : Word) (i : Instr) : Prop := i.wellFormed = true ∧ encode i = op

section
variable {op : Word}

theorem encAddr_of_group {g : Nibble} (hg : (opGroup op).toNat = g.toNat) : encAddr g (opNNN op) = op := by
  rw [← BitVec.eq_of_toNat_eq hg, encAddr_fields]

theorem encRegImm_of_group {g : Nibble} {nn : Byte} (hg : (opGroup op).toNat = g.toNat)
    (hnn : (opNN op).toNat = nn.toNat) : encRegImm g (opX op) nn = op := by
  rw [← BitVec.eq_of_toNat_eq hg, ← BitVec.eq_of_toNat_eq hnn, encRegImm_fields]

theorem encRegReg_of_group {g n : Nibble} (hg : (opGroup op).toNat = g.toNat) (hn : (opN op).toNat = n.toNat) :
    encRegReg g (opX op) (opY op) n = op := by
  rw [← BitVec.eq_of_toNat_eq hg, ← BitVec.eq_of_toNat_eq hn, encRegReg_fields]

theorem isWordOf_decodeGroup0 (hg : (opGroup op).toNat = 0x0) : IsWordOf op (decodeGroup0 op) := by
  have hfields : encAddr 0 (opNNN op) = op := encAddr_of_group hg
  unfold decodeGroup0
  split
  · next hop => exact ⟨rfl, hop.symm⟩
  split
  · next hop => exact ⟨rfl, hop.symm⟩
  next hcls hret =>
  refine ⟨?_, hfields⟩
  have hne {c : Addr12} (hc : op ≠ encAddr 0 c) : opNNN op ≠ c := by
    rintro rfl
    exact hc hfields.symm
  simp only [Instr.wellFormed, sysOperandOk, Bool.and_eq_true, bne_iff_ne]
  exact ⟨hne hcls, hne hret⟩

theorem isWordOf_of_requireN0 {i j : Instr} (h : requireN0 op i = some j)
    (hi : (opN op).toNat = 0 → IsWordOf op i) : IsWordOf op j := by
  rw [requireN0_eq_ite] at h
  split at h
  · next hn =>
    obtain rfl := Option.some.inj h
    exact hi hn
  · cases h

theorem isWordOf_of_decodeGroup8 {i : Instr} (hg : (opGroup op).toNat = 0x8) (h : decodeGroup8 op = some i) :
    IsWordOf op i := by
  unfold decodeGroup8 at h
  split at h
  case h_10 => cases h
  all_goals
    next hn =>
    obtain rfl := Option.some.inj h
    exact ⟨rfl, encRegReg_of_group hg hn⟩

theorem isWordOf_of_decodeGroupE {i : Instr} (hg : (opGroup op).toNat = 0xE) (h : decodeGroupE op = some i) :
    IsWordOf op i := by
  unfold decodeGroupE at h
  split at h
  case h_3 => cases h
  all_goals
    next hnn =>
    obtain rfl := Option.some.inj h
    exact ⟨rfl, encRegImm_of_group hg hnn⟩

theorem isWordOf_of_decodeGroupF {i : Instr} (hg : (opGroup op).toNat = 0xF) (h : decodeGroupF op = some i) :
    IsWordOf op i := by
  unfold decodeGroupF at h
  split at h
  case h_10 => cases h
  all_goals
    next hnn =>
    obtain rfl := Option.some.inj h
    exact ⟨rfl, encRegImm_of_group hg hnn⟩

/-- The last arm of the decoder's dispatch is group F. -/
theorem opGroup_eq_15 (h : ∀ g < 15, (opGroup op).toNat ≠ g) : (opGroup op).toNat = 0xF := by
  have := (opGroup op).isLt
  have := h (opGroup op).toNat
  omega

theorem isWordOf_of_selectInstr {i : Instr} (h : selectInstr op = some i) : IsWordOf op i := by
  unfold selectInstr at h
  split at h
  case h_1 hg => exact Option.some.inj h ▸ isWordOf_decodeGroup0 hg
  case h_6 hg | h_10 hg => exact isWordOf_of_requireN0 h fun hn => ⟨rfl, encRegReg_of_group hg hn⟩
  case h_9 hg => exact isWordOf_of_decodeGroup8 hg h
  case h_15 hg => exact isWordOf_of_decodeGroupE hg h
  case h_16 => exact isWordOf_of_decodeGroupF (opGroup_eq_15 (by grind)) h
  case h_2 hg | h_3 hg | h_11 hg | h_12 hg =>
    obtain rfl := Option.some.inj h
    exact ⟨rfl, encAddr_of_group hg⟩
  case h_14 hg =>
    obtain rfl := Option.some.inj h
    exact ⟨rfl, encRegReg_of_group hg rfl⟩
  all_goals
    next hg =>
    obtain rfl := Option.some.inj h
    exact ⟨rfl, encRegImm_of_group hg rfl⟩

end

/-- Settles O2: each arm of the decoder has tested or kept every field the encoder writes. -/
theorem encodeOfDecodeIsIdentity : Obligations.EncodeOfDecodeIsIdentity := fun _ _ h =>
  isWordOf_of_selectInstr (decode_eq_ok_iff.1 h)

/-! ## The rejected words -/

theorem requireN0_eq_none_iff {op : Word} {i : Instr} : requireN0 op i = none ↔ (opN op).toNat ≠ 0 := by
  simp [requireN0_eq_ite]

theorem decodeGroup8_eq_none_iff {op : Word} :
    decodeGroup8 op = none ↔ (opN op).toNat ∈ [0x8, 0x9, 0xA, 0xB, 0xC, 0xD, 0xF] := by
  have := (opN op).isLt
  unfold decodeGroup8
  split <;> simp <;> grind

theorem decodeGroupE_eq_none_iff {op : Word} : decodeGroupE op = none ↔ (opNN op).toNat ∉ [0x9E, 0xA1] := by
  unfold decodeGroupE
  split <;> simp_all

theorem decodeGroupF_eq_none_iff {op : Word} :
    decodeGroupF op = none ↔ (opNN op).toNat ∉ [0x07, 0x0A, 0x15, 0x18, 0x1E, 0x29, 0x33, 0x55, 0x65] := by
  unfold decodeGroupF
  split <;> simp_all

/-- Settles O4: group by group, what its decoder rejects is what R85 lists for it. -/
theorem unrecognizedWordsAreTheListed : Obligations.UnrecognizedWordsAreTheListed := by
  intro op
  simp only [decode_eq_error_iff, Unrecognized, ← toNat_opGroup, ← toNat_opN, ← toNat_opNN]
  unfold selectInstr
  split
  case h_6 hg | h_10 hg => simp [hg, requireN0_eq_none_iff]
  case h_9 hg => simp [hg, decodeGroup8_eq_none_iff]
  case h_15 hg => simp [hg, decodeGroupE_eq_none_iff]
  case h_16 =>
    have hg : (opGroup op).toNat = 0xF := opGroup_eq_15 (by grind)
    simp [hg, decodeGroupF_eq_none_iff]
  all_goals
    next hg => simp [hg]

/-- Settles O5: each word selects its row by evaluation of the decoder. -/
theorem wordsOfThePatternsDecode : Obligations.WordsOfThePatternsDecode :=
  ⟨rfl, rfl, rfl, rfl, rfl, rfl, rfl, rfl, rfl⟩

end Sys2Proof.Machine
end

section
/-! PROOFS. Frames (00_scope.md R15): how they compose and widen, those of the writes that several instructions share,
and the call stack (41_flow.md R111, R114) as the first use. -/

namespace Sys2Proof.Machine

/-! ## Composing and widening -/

theorem State.Frame.mono {s t : State} {W W' : Part → Prop} (h : s.Frame t W) (hW : ∀ p, W p → W' p) :
    s.Frame t W' :=
  fun p hp => h p (mt (hW p) hp)

/-- Two changes in sequence within the same parts. -/
theorem State.Frame.trans {s t u : State} {W : Part → Prop} (hst : s.Frame t W) (htu : t.Frame u W) :
    s.Frame u W :=
  fun p hp => (hst p hp).trans (htu p hp)

theorem State.OnlyChanged.mono {s t : State} {ps qs : List Part} (h : s.OnlyChanged t ps) (hsub : ps ⊆ qs) :
    s.OnlyChanged t qs :=
  State.Frame.mono h fun _ hp => hsub hp

/-- A list of changed parts within any set of parts that holds them. -/
theorem State.OnlyChanged.frame {s t : State} {ps : List Part} {W : Part → Prop} (h : s.OnlyChanged t ps)
    (hW : ∀ p ∈ ps, W p) : s.Frame t W :=
  State.Frame.mono h hW

/-- A frame of one part, as the rules of single-part instructions state it. -/
theorem State.OnlyChanged.frame_eq {s t : State} {q : Part} (h : s.OnlyChanged t [q]) : s.Frame t (· = q) :=
  h.frame fun _ hp => List.mem_singleton.mp hp

/-- An instruction answers one next state. -/
theorem exec_next_inj {i : Instr} {s t u : State} (ht : exec i s = .next t) (hu : exec i s = .next u) : t = u :=
  Host.Outcome.next.inj (ht.symm.trans hu)

/-! ## A report, and the PC advance -/

/-- A report changes the report output and its record alone (R105, R201). -/
theorem State.onlyChanged_raise (s : State) (r : Report) : s.OnlyChanged (s.raise r) [.report, .reportLog] := by
  intro p hp
  cases p with
  | report | reportLog => simp at hp
  | _ => rfl

theorem State.reported_raise (s : State) (r : Report) : s.Reported (s.raise r) r :=
  ⟨rfl, rfl, s.onlyChanged_raise r⟩

theorem State.onlyChanged_advance (s : State) : s.OnlyChanged s.advance [.pc, .report] := by
  intro p hp
  cases p with
  | pc | report => simp at hp
  | _ => rfl

/-! ## The call stack -/

/-- What 2nnn leaves when a slot is free: PC pushed, then the jump (R114). -/
def State.called (s : State) (nnn : Addr12) (h : s.sp.val < 16) : State :=
  { s with stack := s.stack.set s.sp.val s.pc, sp := ⟨s.sp.val + 1, Nat.succ_lt_succ h⟩, pc := addrOperand nnn }

/-- What 00EE leaves when an address is held: the newest one in PC, its slot kept (R26, R111). -/
def State.returned (s : State) (h : 0 < s.sp.val) : State :=
  { s with sp := ⟨s.sp.val - 1, Nat.lt_of_le_of_lt (Nat.sub_le _ _) s.sp.isLt⟩, pc := s.stack[s.sp.val - 1] }

section
variable {s : State}

theorem exec_call_of_room (nnn : Addr12) (h : s.sp.val < 16) : exec (.call nnn) s = .next (s.called nnn h) := by
  rw [exec_call_eq, dif_pos h]
  rfl

theorem exec_call_of_full (nnn : Addr12) (h : ¬ s.sp.val < 16) :
    exec (.call nnn) s = .next (s.raise .stackOverflow) := by
  rw [exec_call_eq, dif_neg h]

theorem exec_ret_of_held (h : 0 < s.sp.val) : exec .ret s = .next (s.returned h) := by
  rw [exec_ret_eq, dif_pos h]
  rfl

theorem exec_ret_of_empty (h : ¬ 0 < s.sp.val) : exec .ret s = .next (s.raise .stackUnderflow) := by
  rw [exec_ret_eq, dif_neg h]

/-- Slot SP after a push is the old PC, every other slot is as before. -/
theorem State.called_stack (nnn : Addr12) (h : s.sp.val < 16) (j : Fin 16) :
    (s.called nnn h).stack[j.val] = if s.sp.val = j.val then s.pc else s.stack[j.val] :=
  Vector.getElem_set h j.isLt

end

/-- Settles O23: with a free slot the push and the jump write slot SP, SP and PC. -/
theorem callPushesAndJumps : Obligations.CallPushesAndJumps := by
  intro s nnn
  refine ⟨fun j hj => ?_, fun hfull => ⟨_, exec_call_of_full nnn (by omega), s.reported_raise _⟩⟩
  refine ⟨_, exec_call_of_room nnn (hj ▸ j.isLt), ?_, rfl, toNat_addrOperand nnn, fun p hp => ?_⟩
  · rw [State.called_stack, if_pos hj.symm]
  cases p with
  | slot k =>
    have hk : s.sp.val ≠ k.val := fun hk => hp (Fin.ext (hj.trans hk) ▸ List.mem_cons_self ..)
    exact (State.called_stack nnn _ k).trans (if_neg hk)
  | sp | pc => simp at hp
  | _ => rfl

/-- Settles O24: with an address held the pop writes SP and PC, and no slot. -/
theorem returnPopsThePc : Obligations.ReturnPopsThePc := by
  intro s
  refine ⟨fun j hj => ?_, fun hempty => ⟨_, exec_ret_of_empty (by omega), s.reported_raise _⟩⟩
  refine ⟨_, exec_ret_of_held (by omega), ?_, ?_, fun p hp => ?_⟩
  · simp [State.returned, ← hj]
  · simp only [State.returned]; omega
  cases p with
  | sp | pc => simp at hp
  | _ => rfl

end Sys2Proof.Machine
end

section
/-! PROOFS. Arithmetic with a flag, shifts and the random byte (42_alu.md R137 to R142). Each makes two writes in the
order D6 fixes; `reg_setReg` says what the second one reads. -/

namespace Sys2Proof.Machine

theorem State.onlyChanged_setReg_setReg (s : State) {x y : Reg} {parts : List Part} (hx : .reg x ∈ parts)
    (hy : .reg y ∈ parts) (b c : Byte) : s.OnlyChanged ((s.setReg x b).setReg y c) parts :=
  State.Frame.trans (s.onlyChanged_setReg hx b) (State.onlyChanged_setReg _ hy c)

theorem toNat_ofNat_exactSum (a b : Byte) : (BitVec.ofNat 8 (exactSum a b)).toNat = (a.toNat + b.toNat) % 256 :=
  BitVec.toNat_ofNat ..

/-- Settles O28: the carry is the last write, so it stands in VF whatever x is. -/
theorem addSetsCarryLast : Obligations.AddSetsCarryLast := by
  intro s x y
  refine ⟨_, rfl, s.onlyChanged_setReg_setReg (by simp) (by simp) _ _, fun hx => ?_, ?_⟩
  · rw [State.reg_setReg_ne _ _ hx, State.reg_setReg_same, toNat_ofNat_exactSum]
  · rw [State.reg_setReg_same, toNat_carryFlag]

theorem toNat_sub_byte (a b : Byte) : (a - b).toNat = (a.toNat + 256 - b.toNat) % 256 := by
  have := b.isLt
  rw [BitVec.toNat_sub]
  congr 1
  omega

/-- What 8xy5 and 8xy7 share: the flag is written, then the difference of a and b, read after that write, goes to x
(R138, R140). -/
def State.subInto (s : State) (flag : Byte) (x a b : Reg) : State :=
  (s.setReg VF flag).setReg x ((s.setReg VF flag).reg a - (s.setReg VF flag).reg b)

theorem exec_subReg_eq (x y : Reg) (s : State) :
    exec (.subReg x y) s = .next (s.subInto (noBorrowFlag (s.reg x) (s.reg y)) x x y) := rfl

theorem exec_subnReg_eq (x y : Reg) (s : State) :
    exec (.subnReg x y) s = .next (s.subInto (noBorrowFlag (s.reg y) (s.reg x)) x y x) := rfl

theorem State.onlyChanged_subInto (s : State) (flag : Byte) (x a b : Reg) :
    s.OnlyChanged (s.subInto flag x a b) [.reg x, .reg VF] :=
  s.onlyChanged_setReg_setReg (by simp) (by simp) _ _

/-- The difference: an operand that is VF reads as the flag. -/
theorem State.toNat_reg_subInto (s : State) (flag : Byte) (x a b : Reg) :
    ((s.subInto flag x a b).reg x).toNat =
      ((if a = VF then flag else s.reg a).toNat + 256 - (if b = VF then flag else s.reg b).toNat) % 256 := by
  rw [State.subInto, State.reg_setReg_same, toNat_sub_byte, State.reg_setReg, State.reg_setReg]

theorem State.reg_VF_subInto (s : State) (flag : Byte) {x : Reg} (a b : Reg) (hx : x ≠ VF) :
    (s.subInto flag x a b).reg VF = flag := by
  rw [State.subInto, State.reg_setReg_ne _ _ hx.symm, State.reg_setReg_same]

/-- Settles O29: for each of the two, the four cases of x and y being VF or not. -/
theorem subtractSetsNoBorrowFirst : Obligations.SubtractSetsNoBorrowFirst := by
  rintro s x y _ _ _ _ rfl rfl rfl rfl
  refine ⟨⟨_, exec_subReg_eq x y s, s.onlyChanged_subInto _ _ _ _, ?_⟩,
    ⟨_, exec_subnReg_eq x y s, s.onlyChanged_subInto _ _ _ _, ?_⟩⟩
  · by_cases hx : x = VF <;> by_cases hy : y = VF <;>
      simp [hx, hy, State.toNat_reg_subInto, State.reg_VF_subInto, toNat_noBorrowFlag]
  · by_cases hx : x = VF <;> by_cases hy : y = VF <;>
      simp [hx, hy, State.toNat_reg_subInto, State.reg_VF_subInto, toNat_noBorrowFlag]

theorem toNat_shr_byte (a : Byte) : (a >>> 1).toNat = a.toNat / 2 := by
  rw [BitVec.toNat_ushiftRight, Nat.shiftRight_eq_div_pow, pow_one]

theorem toNat_shl_byte (a : Byte) : (a <<< 1).toNat = a.toNat * 2 % 256 := by
  rw [BitVec.toNat_shiftLeft, Nat.shiftLeft_eq, pow_one]

/-- Settles O30: y occurs in neither meaning, and with x = 15 the flag just written is what is shifted. -/
theorem shiftsPutTheLostBitInVF : Obligations.ShiftsPutTheLostBitInVF := by
  intro s x y z
  refine ⟨rfl, rfl, ⟨_, rfl, s.onlyChanged_setReg_setReg (by simp) (by simp) _ _, fun hx => ⟨?_, ?_⟩, fun hx => ?_⟩,
    ⟨_, rfl, s.onlyChanged_setReg_setReg (by simp) (by simp) _ _, fun hx => ⟨?_, ?_⟩, fun hx => ?_⟩⟩
  · rw [State.reg_setReg_same, State.reg_setReg_ne _ _ hx, toNat_shr_byte]
  · rw [State.reg_setReg_ne _ _ hx.symm, State.reg_setReg_same, toNat_shiftedOutRight]
  · rw [hx, State.reg_setReg_same, State.reg_setReg_same, toNat_shr_byte, toNat_shiftedOutRight]
    omega
  · rw [State.reg_setReg_same, State.reg_setReg_ne _ _ hx, toNat_shl_byte]
  · rw [State.reg_setReg_ne _ _ hx.symm, State.reg_setReg_same, toNat_shiftedOutLeft]
  · rw [hx, State.reg_setReg_same, State.reg_setReg_same, toNat_shl_byte, toNat_shiftedOutLeft]
    have := (s.reg VF).isLt
    omega

theorem State.onlyChanged_setDraws (s : State) (n : Nat) : s.OnlyChanged { s with draws := n } [.draws] := by
  intro p hp
  cases p with
  | draws => exact absurd (List.mem_singleton_self _) hp
  | _ => rfl

/-- Settles O31: nothing is asked of the byte drawn; the AND keeps no bit that nn has not. -/
theorem randomByteIsMasked : Obligations.RandomByteIsMasked := by
  intro s x nn
  refine ⟨_, rfl, ?_, rfl, fun j => ?_, ?_⟩
  · exact State.Frame.trans ((s.onlyChanged_setDraws _).mono (by simp)) (State.onlyChanged_setReg _ (by simp) _)
  · rw [State.reg_setReg_same, BitVec.getLsbD_and]
  · rw [State.reg_setReg_same, BitVec.toNat_and]
    exact Nat.and_le_right

end Sys2Proof.Machine
end

section
/-! PROOFS. Blocks of memory (20_memory.md R52 to R58, 43_index_memory.md R153 to R155): what a block write leaves at
each address, what a store and a load through I do inside and outside their range, and what the fetch reads after one.
-/

namespace Sys2Proof.Machine

/-! ## Block writes, address by address -/

section
variable {m m' : Memory} {a : Nat} {bs : List Byte}

theorem Memory.read_writeBytes (h : m.writeBytes a bs = some m') {k : Nat} (hk : k < bs.length) :
    m'.read (a + k) = some (bs.getD k 0) := by
  have hfits : bs = [] ∨ a + bs.length ≤ Config.memSize := (m.writeBytes_isSome a bs).1 (by simp [h])
  have hlt : a + k < Config.memSize := by
    rcases hfits with rfl | hfits
    · cases hk
    · omega
  rw [Memory.read_eq, if_pos hlt, Memory.get_writeBytes h, if_pos (by omega), Nat.add_sub_cancel_left]

theorem Memory.read_writeBytes_of_not_mem (h : m.writeBytes a bs = some m') {x : Nat}
    (hx : ¬(a ≤ x ∧ x < a + bs.length)) : m'.read x = m.read x := by
  rw [Memory.read_eq, Memory.read_eq, Memory.get_writeBytes h, if_neg hx]

/-- A block write changes the bytes of its range alone (R56, R57). -/
theorem State.frame_writeBytes {s : State} (h : s.mem.writeBytes a bs = some m') :
    s.Frame { s with mem := m' } (fun p => ∃ x, a ≤ x ∧ x < a + bs.length ∧ p = .byte x) := by
  intro p hp
  cases p with
  | byte x => exact Memory.read_writeBytes_of_not_mem h fun hx => hp ⟨x, hx.1, hx.2, rfl⟩
  | _ => rfl

end

/-- Settles O20: inside 4096 a load is one block write, beyond it fails; the ROM of a boot is loaded at 0x200. -/
theorem loadCopiesAllOrFails : Obligations.LoadCopiesAllOrFails := by
  intro s offset bytes
  refine ⟨fun hfits => ?_, fun hlong => ?_, fun hlong => ?_⟩
  · obtain ⟨m, hm, hload⟩ := s.load_of_le hfits
    exact ⟨_, hload, fun k hk => Memory.read_writeBytes hm hk, State.frame_writeBytes hm⟩
  · obtain ⟨hfits, _⟩ | ⟨_, hfault⟩ := s.load_cases offset bytes
    · exact absurd hfits (Nat.not_le_of_gt hlong)
    · exact hfault
  · obtain ⟨m, _, hboot⟩ := boot_eq_load_rom bytes
    obtain ⟨hfits, _⟩ | ⟨_, hfault⟩ := ({ State.created with mem := m } : State).load_cases Config.romBase bytes
    · simp only [Config.romBase, Config.memSize] at hfits
      omega
    · exact hboot.trans hfault

/-! ## Accesses through I -/

theorem State.rangeOk_iff {s : State} {n : Nat} : s.RangeOk n ↔ n = 0 ∨ s.i.toNat + n ≤ Config.memSize := by
  simp only [State.RangeOk, Config.memSize]
  omega

/-- An address of a valid range is an address of memory. -/
theorem State.RangeOk.read {s : State} {n k : Nat} (h : s.RangeOk n) (hk : k < n) :
    s.mem.read (s.i.toNat + k) = some (s.mem.get (s.i.toNat + k)) := by
  rw [Memory.read_eq, if_pos]
  have := State.rangeOk_iff.1 h
  omega

theorem State.storeBlock_of_rangeOk {s : State} {bs : List Byte} (h : s.RangeOk bs.length) :
    ∃ t, s.storeBlock bs = .next t ∧ (∀ k < bs.length, t.mem.read (s.i.toNat + k) = some (bs.getD k 0)) ∧
      s.Frame t (fun p => ∃ a, s.InBlock bs.length a ∧ p = .byte a) := by
  obtain ⟨_, m, hm, hstore⟩ | ⟨hbad, _⟩ := s.storeBlock_cases bs
  · refine ⟨_, hstore, fun k hk => Memory.read_writeBytes hm hk, (State.frame_writeBytes hm).mono ?_⟩
    rintro p ⟨a, hlo, hhi, rfl⟩
    exact ⟨a, ⟨hlo, hhi⟩, rfl⟩
  · rw [← List.length_eq_zero_iff] at hbad
    exact absurd (State.rangeOk_iff.1 h) hbad

theorem State.storeBlock_of_not_rangeOk {s : State} {bs : List Byte} (h : ¬ s.RangeOk bs.length) :
    s.storeBlock bs = .next (s.raise (.memoryBounds s.i)) := by
  obtain ⟨hok, _⟩ | ⟨_, hraise⟩ := s.storeBlock_cases bs
  · rw [← List.length_eq_zero_iff] at hok
    exact absurd (State.rangeOk_iff.2 hok) h
  · exact hraise

theorem State.withBlock_of_rangeOk {s : State} {n : Nat} (h : s.RangeOk n) (use : List Byte → State) :
    s.withBlock n use = .next (use ((List.range' s.i.toNat n).map s.mem.get)) := by
  rw [State.withBlock_eq, if_pos (State.rangeOk_iff.1 h)]

theorem State.withBlock_of_not_rangeOk {s : State} {n : Nat} (h : ¬ s.RangeOk n) (use : List Byte → State) :
    s.withBlock n use = .next (s.raise (.memoryBounds s.i)) := by
  rw [State.withBlock_eq, if_neg (mt State.rangeOk_iff.2 h)]

theorem getD_map_range' (f : Nat → Byte) {a n k : Nat} (hk : k < n) :
    ((List.range' a n).map f).getD k 0 = f (a + k) := by
  simp [List.getD_eq_getElem?_getD, hk]

/-! ## Fx33, Fx55, Fx65 -/

/-- Settles O35: the block stored is the three digits. -/
theorem decimalDigitsAreStored : Obligations.DecimalDigitsAreStored := by
  intro s x hrange
  obtain ⟨t, hstore, hread, hframe⟩ := State.storeBlock_of_rangeOk (bs := bcdDigits (s.reg x)) hrange
  have hlt := (s.reg x).isLt
  refine ⟨t, _, _, _, hstore, hread 0 (by simp), hread 1 (by simp), hread 2 (by simp), ?_, ?_, ?_, ?_, hframe⟩ <;>
    simp only [bcdDigits, List.getD_cons_zero, List.getD_cons_succ, BitVec.toNat_ofNat] <;> omega

/-- Settles O36: the block stored is V0..Vx. -/
theorem registersAreStored : Obligations.RegistersAreStored := by
  intro s x hrange
  rw [← s.length_regBlock x] at hrange
  obtain ⟨t, hstore, hread, hframe⟩ := State.storeBlock_of_rangeOk hrange
  rw [State.length_regBlock] at hread hframe
  refine ⟨t, hstore, fun k hk => ?_, hframe⟩
  rw [hread k (Nat.lt_succ_of_le hk), State.getD_regBlock s x k hk]

theorem State.frame_loadRegs (s : State) {bs : List Byte} {x : Reg} (h : bs.length = x.val + 1) :
    s.Frame (s.loadRegs 0 bs) (fun p => ∃ k : Reg, k ≤ x ∧ p = .reg k) := by
  intro p hp
  cases p with
  | reg y =>
    have hy : ¬ y.val < 0 + bs.length := fun hy => hp ⟨y, Fin.le_def.2 (by omega), rfl⟩
    exact (s.reg_loadRegs 0 bs (by omega) y).trans (if_neg (by omega))
  | _ => rw [State.loadRegs_eq]; rfl

/-- Settles O37: the block read is loaded register by register. -/
theorem registersAreLoaded : Obligations.RegistersAreLoaded := by
  intro s x hrange
  refine ⟨_, State.withBlock_of_rangeOk hrange _, fun k hk => ?_, s.frame_loadRegs (by simp)⟩
  have hk' : k.val < x.val + 1 := Nat.lt_succ_of_le hk
  rw [hrange.read hk', State.reg_loadRegs _ _ _ (by simp), if_pos (by simpa using hk'), Nat.sub_zero,
    getD_map_range' _ hk']

/-- Settles O38: the two checked accesses raise before any change. -/
theorem outOfRangeAccessIsSuppressed : Obligations.OutOfRangeAccessIsSuppressed := by
  intro s x y n
  have hreport := s.reported_raise (.memoryBounds s.i)
  refine ⟨fun h => ⟨_, State.storeBlock_of_not_rangeOk h, hreport⟩, fun h => ⟨⟨_, ?_, hreport⟩, ⟨_, ?_, hreport⟩⟩,
    fun h => ⟨_, State.withBlock_of_not_rangeOk h _, hreport⟩⟩
  · rw [← s.length_regBlock x] at h
    exact State.storeBlock_of_not_rangeOk h
  · exact State.withBlock_of_not_rangeOk h _

/-- Settles O39: by the two rules, the load gives register k the byte the store put at I + k. -/
theorem storeThenLoadRestoresRegisters : Obligations.StoreThenLoadRestoresRegisters := by
  intro s t u w x k hrange hstore hmem hi hload hk
  obtain ⟨t', hstore', hstored, _⟩ := registersAreStored s x hrange
  obtain rfl := exec_next_inj hstore hstore'
  have hrange' : u.RangeOk (x.val + 1) := by rwa [State.RangeOk, hi]
  obtain ⟨w', hload', hloaded, _⟩ := registersAreLoaded u x hrange'
  obtain rfl := exec_next_inj hload hload'
  have h := hloaded k hk
  rw [hmem, hi, hstored k hk] at h
  exact (Option.some.inj h).symm

/-! ## The fetch -/

theorem State.fetch_of_reads {s : State} {hi lo : Byte} (hhi : s.mem.read s.pc.toNat = some hi)
    (hlo : s.mem.read (s.pc.toNat + 1) = some lo) : s.fetch = some (wordOfBytes hi lo) := by
  simp only [State.fetch, Memory.readWord, hhi, hlo, wordOfBytes]

/-- Settles O40: the fetch reads the two bytes the store has put at PC. -/
theorem storeIsSeenByTheNextFetch : Obligations.StoreIsSeenByTheNextFetch := by
  intro s t x hrange hx hstore hpc
  obtain ⟨t', hstore', hread, hframe⟩ := registersAreStored s x hrange
  obtain rfl := exec_next_inj hstore hstore'
  have hsame : t.pc = s.pc := hframe .pc (by simp)
  have htpc : t.pc = s.i := hsame.trans hpc
  have h0 := hread 0 (Fin.zero_le x)
  have h1 := hread 1 (Fin.le_def.2 hx)
  rw [← htpc] at h0 h1
  exact ⟨_, State.fetch_of_reads h0 h1, toNat_wordOfBytes _ _⟩

end Sys2Proof.Machine
end

section
/-! PROOFS. The keypad instructions (45_keypad.md R171 to R173): the two key skips are the skips of 41_flow.md on
another condition, and Fx0A has one equation for each state of the key wait. -/

namespace Sys2Proof.Machine

/-! ## Ex9E, ExA1 -/

/-- Settles O44: the key tested is the low four bits of Vx. -/
theorem keySkipsTestOneKey : Obligations.KeySkipsTestOneKey := by
  intro s x k hk
  have hkey : keyOperand (s.reg x) = k := Fin.ext ((val_keyOperand _).trans hk.symm)
  refine ⟨⟨_, rfl, s.onlyChanged_skipIf _, s.toNat_skipIf_pc ?_⟩,
    ⟨_, rfl, s.onlyChanged_skipIf _, s.toNat_skipIf_pc ?_⟩⟩
  · rw [hkey]
  · rw [hkey, Bool.not_eq_true']

/-! ## Fx0A -/

section
variable {s : State} (x : Reg)

theorem exec_ldVxK_of_idle (hw : s.wait = .idle) :
    exec (.ldVxK x) s = .next (({ s with wait := .awaitingKey, lastRel := none } : State).jump (s.pc - 2)) := by
  simp [exec, execLdVxK, hw]

theorem exec_ldVxK_of_none (hw : s.wait = .awaitingKey) (hr : s.lastRel = none) :
    exec (.ldVxK x) s = .next (s.jump (s.pc - 2)) := by
  simp [exec, execLdVxK, hw, hr]

theorem exec_ldVxK_of_some (hw : s.wait = .awaitingKey) {k : Key} (hr : s.lastRel = some k) :
    exec (.ldVxK x) s = .next (({ s with wait := .idle, lastRel := none } : State).setReg x (keyByte k)) := by
  simp [exec, execLdVxK, hw, hr]

end

theorem toNat_sub_two (w : Word) : (w - 2).toNat = (w.toNat + 65534) % 65536 := by
  rw [BitVec.toNat_sub, Nat.add_comm]
  rfl

theorem State.onlyChanged_setWait (s : State) (w : KeyWait) (r : Option Key) :
    s.OnlyChanged { s with wait := w, lastRel := r } [.wait, .lastRel] := by
  intro p hp
  cases p with
  | wait | lastRel => simp at hp
  | _ => rfl

/-- Settles O45: the three states of the key wait. -/
theorem keyWaitStateMachine : Obligations.KeyWaitStateMachine := by
  intro s x
  refine ⟨fun hw => ⟨_, exec_ldVxK_of_idle x hw, rfl, rfl, toNat_sub_two s.pc, ?_⟩,
    fun hw hr => ⟨_, exec_ldVxK_of_none x hw hr, toNat_sub_two s.pc, s.onlyChanged_jump _⟩,
    fun k hw hr => ⟨_, exec_ldVxK_of_some x hw hr, ?_, rfl, rfl, ?_⟩⟩
  · exact (s.onlyChanged_setWait _ _).trans (State.onlyChanged_jump _ _)
  · rw [State.reg_setReg_same, toNat_keyByte]
  · exact State.Frame.trans ((s.onlyChanged_setWait _ _).mono (by simp)) (State.onlyChanged_setReg _ (by simp) _)

end Sys2Proof.Machine
end

section
/-! PROOFS. The sprite draw (44_display.md R160 to R163). Every bit of a sprite falls on a pixel of its own, since a
row has 8 columns and the grid 64, and a sprite at most 15 rows and the grid 32. So the draw's pixels, and its
collisions, can be read off the first grid, bit by bit. -/

namespace Sys2Proof.Machine

/-! ## Drawing on a set of pixels -/

/-- From `acc` to `acc'` exactly the pixels of `P` are inverted, and a collision is noted exactly if one of them was
on. -/
structure Draws (acc acc' : Framebuffer × Bool) (P : Fin 32 → Fin 64 → Prop) : Prop where
  pixel : ∀ y x, acc'.1.pixel y x ≠ acc.1.pixel y x ↔ P y x
  collision : acc'.2 = true ↔ acc.2 = true ∨ ∃ y x, P y x ∧ acc.1.pixel y x = true

section
variable {a b c : Framebuffer × Bool} {P Q : Fin 32 → Fin 64 → Prop}

theorem Draws.pixel_of_not (h : Draws a b P) {y : Fin 32} {x : Fin 64} (hP : ¬ P y x) : b.1.pixel y x = a.1.pixel y x :=
  not_not.1 (mt (h.pixel y x).1 hP)

theorem Draws.congr (h : Draws a b P) (hPQ : ∀ y x, P y x ↔ Q y x) : Draws a b Q :=
  ⟨fun y x => (h.pixel y x).trans (hPQ y x), h.collision.trans (by simp only [hPQ])⟩

theorem Draws.refl (a : Framebuffer × Bool) : Draws a a fun _ _ => False :=
  ⟨fun _ _ => by simp, by simp⟩

/-- Two draws with no pixel in common: the second sees the first grid on its own pixels. -/
theorem Draws.trans (hab : Draws a b P) (hbc : Draws b c Q) (hdisj : ∀ y x, P y x → ¬ Q y x) :
    Draws a c fun y x => P y x ∨ Q y x := by
  have hQ {y x} (h : Q y x) : b.1.pixel y x = a.1.pixel y x := hab.pixel_of_not fun hP => hdisj y x hP h
  refine ⟨fun y x => ?_, ?_⟩
  · by_cases hq : Q y x
    · rw [← hQ hq]
      exact (hbc.pixel y x).trans (by simp [hq])
    · rw [hbc.pixel_of_not hq]
      exact (hab.pixel y x).trans (by simp [hq])
  · have hsame : (∃ y x, Q y x ∧ b.1.pixel y x = true) ↔ ∃ y x, Q y x ∧ a.1.pixel y x = true :=
      exists₂_congr fun y x => and_congr_right fun h => by rw [hQ h]
    rw [hbc.collision, hab.collision, hsame, or_assoc]
    simp only [or_and_right, exists_or]

/-- Drawing twice on the same pixels inverts them twice, whatever collision was noted between. -/
theorem Draws.twice {b' : Framebuffer × Bool} (hab : Draws a b P) (hbc : Draws b' c P) (hb : b'.1 = b.1) :
    c.1 = a.1 := by
  refine Framebuffer.ext_pixel fun y x => ?_
  by_cases hP : P y x
  · have hfirst := (hab.pixel y x).2 hP
    have hsecond := (hbc.pixel y x).2 hP
    rw [hb] at hsecond
    rw [Bool.eq_not.2 hsecond, Bool.eq_not.2 hfirst, Bool.not_not]
  · rw [hbc.pixel_of_not hP, hb, hab.pixel_of_not hP]

end

/-! ## The column and row of a sprite that fall on a pixel -/

/-- The sprite column that falls on column `px`, the sprite being drawn at `x0`. -/
def spriteCol (x0 : Nat) (px : Fin 64) : Nat := (px.val + 64 - x0 % 64) % 64

/-- The sprite row that falls on row `py`, the sprite being drawn at `y0`. -/
def spriteRow (y0 : Nat) (py : Fin 32) : Nat := (py.val + 32 - y0 % 32) % 32

theorem eq_ofNat_iff_spriteCol {x0 col : Nat} {px : Fin 64} (h : col < 64) :
    px = Fin.ofNat 64 (x0 + col) ↔ spriteCol x0 px = col := by
  simp only [spriteCol, Fin.ext_iff, Fin.ofNat]
  omega

theorem eq_ofNat_iff_spriteRow {y0 row : Nat} {py : Fin 32} (h : row < 32) :
    py = Fin.ofNat 32 (y0 + row) ↔ spriteRow y0 py = row := by
  simp only [spriteRow, Fin.ext_iff, Fin.ofNat]
  omega

/-! ## One bit, one row, all rows -/

theorem draws_drawBit (x0 y0 : Nat) {row col : Nat} (b : Byte) (acc : Framebuffer × Bool) (hrow : row < 32)
    (hcol : col < 64) :
    Draws acc (drawBit x0 y0 row b acc col)
      fun y x => spriteRow y0 y = row ∧ spriteCol x0 x = col ∧ spriteBit b col = true := by
  refine ⟨fun y x => ?_, ?_⟩
  · rw [drawBit_pixel, ← eq_ofNat_iff_spriteRow hrow, ← eq_ofNat_iff_spriteCol hcol]
    cases acc.1.pixel y x <;> simp <;> tauto
  · simp only [drawBit_collision, ← eq_ofNat_iff_spriteRow hrow, ← eq_ofNat_iff_spriteCol hcol, Bool.or_eq_true,
      Bool.and_eq_true, and_assoc, exists_eq_left, exists_and_left]

theorem draws_foldl_drawBit (x0 y0 : Nat) {row : Nat} (b : Byte) (acc : Framebuffer × Bool) (hrow : row < 32)
    {n : Nat} (hn : n ≤ 64) :
    Draws acc ((List.range n).foldl (drawBit x0 y0 row b) acc)
      fun y x => spriteRow y0 y = row ∧ spriteCol x0 x < n ∧ spriteBit b (spriteCol x0 x) = true := by
  induction n with
  | zero => exact (Draws.refl acc).congr (by simp)
  | succ n ih =>
    rw [List.range_succ, List.foldl_append]
    refine ((ih (by omega)).trans (draws_drawBit x0 y0 b _ hrow hn) ?_).congr fun y x => ?_
    · rintro y x ⟨_, hlt, _⟩ ⟨_, heq, _⟩
      omega
    · grind

theorem draws_drawRow (x0 y0 : Nat) {row : Nat} (b : Byte) (acc : Framebuffer × Bool) (hrow : row < 32) :
    Draws acc (drawRow x0 y0 row b acc)
      fun y x => spriteRow y0 y = row ∧ spriteCol x0 x < 8 ∧ spriteBit b (spriteCol x0 x) = true :=
  draws_foldl_drawBit x0 y0 b acc hrow (by decide)

/-- The sprite rows from `row` on. -/
theorem draws_drawRows (x0 y0 row : Nat) (bs : List Byte) (acc : Framebuffer × Bool) (h : row + bs.length ≤ 32) :
    Draws acc (drawRows x0 y0 row bs acc)
      fun y x => spriteCol x0 x < 8 ∧ row ≤ spriteRow y0 y ∧ spriteRow y0 y < row + bs.length ∧
        spriteBit (bs.getD (spriteRow y0 y - row) 0) (spriteCol x0 x) = true := by
  induction bs generalizing row acc with
  | nil => exact (Draws.refl acc).congr (by simp; omega)
  | cons b bs ih =>
    rw [List.length_cons] at h
    rw [drawRows]
    refine ((draws_drawRow x0 y0 b acc (by omega)).trans (ih (row + 1) _ (by omega)) ?_).congr fun y x => ?_
    · rintro y x ⟨heq, _⟩ ⟨_, hlt, _⟩
      omega
    · rw [List.length_cons]
      rcases Nat.lt_trichotomy (spriteRow y0 y) row with hr | hr | hr
      · grind
      · simp [hr]
      · obtain ⟨d, hd⟩ := Nat.exists_eq_add_of_lt hr
        have hd' : spriteRow y0 y - (row + 1) = d := by omega
        have hd'' : spriteRow y0 y - row = d + 1 := by omega
        rw [hd', hd'', List.getD_cons_succ]
        grind

/-! ## Dxyn -/

/-- The sprite of a valid range, read from I, falls on the pixels the rule names. -/
theorem State.draws_drawSprite {s : State} {n : Nibble} (h : s.RangeOk n.toNat) (x y : Reg) :
    Draws (s.fb, false) (drawSprite s.fb (s.reg x) (s.reg y) ((List.range' s.i.toNat n.toNat).map s.mem.get))
      (s.SpriteCovers x y n) := by
  have hn := n.isLt
  refine (draws_drawRows (s.reg x).toNat (s.reg y).toNat 0 _ _ (by simp; omega)).congr fun py px => ?_
  refine and_congr_right fun _ => ?_
  rw [List.length_map, List.length_range', Nat.zero_add, Nat.sub_zero]
  refine (and_iff_right (Nat.zero_le _)).trans (and_congr_right fun hrow => ?_)
  rw [getD_map_range' _ hrow]
  have hread := h.read hrow
  simp only [spriteRow] at hread
  simp [hread, spriteBit, spriteRow, spriteCol]

/-- What Dxyn leaves after drawing. -/
def State.drawn (s : State) (d : Framebuffer × Bool) : State :=
  ({ s with fb := d.1 } : State).setReg VF (collisionFlag d.2)

theorem exec_drw_of_rangeOk {s : State} {n : Nibble} (h : s.RangeOk n.toNat) (x y : Reg) :
    ∃ d, exec (.drw x y n) s = .next (s.drawn d) ∧ Draws (s.fb, false) d (s.SpriteCovers x y n) :=
  ⟨_, State.withBlock_of_rangeOk h _, s.draws_drawSprite h x y⟩

theorem State.toNat_reg_VF_drawn (s : State) (d : Framebuffer × Bool) :
    ((s.drawn d).reg VF).toNat = if d.2 then 1 else 0 := by
  rw [State.drawn, State.reg_setReg_same, collisionFlag, toNat_flagByte]

theorem State.reg_VF_drawn_eq_one_iff {s : State} {d : Framebuffer × Bool} {P : Fin 32 → Fin 64 → Prop}
    (h : Draws (s.fb, false) d P) :
    ((s.drawn d).reg VF).toNat = 1 ↔ ∃ py px, P py px ∧ s.fb.pixel py px = true := by
  rw [State.toNat_reg_VF_drawn]
  simpa using h.collision

theorem State.frame_drawn {s : State} {d : Framebuffer × Bool} {P : Fin 32 → Fin 64 → Prop}
    (h : Draws (s.fb, false) d P) :
    s.Frame (s.drawn d) (fun p => p = .reg VF ∨ ∃ py px, P py px ∧ p = .pixel py px) := by
  intro p hp
  cases p with
  | reg r =>
    have hr : r ≠ VF := fun hr => hp (.inl (congrArg Part.reg hr))
    exact State.reg_setReg_ne _ _ hr
  | pixel py px => exact h.pixel_of_not fun hP => hp (.inr ⟨py, px, hP, rfl⟩)
  | _ => rfl

/-- Settles O42: the draw of the sprite at I, and the flag written last. -/
theorem drawInvertsCoveredPixels : Obligations.DrawInvertsCoveredPixels := by
  intro s x y n hrange
  obtain ⟨d, hexec, hdraws⟩ := exec_drw_of_rangeOk hrange x y
  refine ⟨_, hexec, hdraws.pixel, State.reg_VF_drawn_eq_one_iff hdraws, ?_, State.frame_drawn hdraws⟩
  rw [State.toNat_reg_VF_drawn]
  split <;> omega

theorem State.spriteCovers_congr {s u : State} {x y : Reg} (hmem : u.mem = s.mem) (hi : u.i = s.i)
    (hx : u.reg x = s.reg x) (hy : u.reg y = s.reg y) (n : Nibble) : u.SpriteCovers x y n = s.SpriteCovers x y n := by
  funext py px
  simp only [State.SpriteCovers, hmem, hi, hx, hy]

/-- Settles O43: both draws are on the same pixels, and the second finds on what the first found off. -/
theorem drawingTwiceRestoresTheFramebuffer : Obligations.DrawingTwiceRestoresTheFramebuffer := by
  intro s t u w x y n hrange hfirst hfb hmem hi hx hy hsecond
  obtain ⟨d, hfirst', hd⟩ := exec_drw_of_rangeOk hrange x y
  obtain rfl := exec_next_inj hfirst hfirst'
  have hrange' : u.RangeOk n.toNat := by rwa [State.RangeOk, hi]
  obtain ⟨e, hsecond', he⟩ := exec_drw_of_rangeOk hrange' x y
  obtain rfl := exec_next_inj hsecond hsecond'
  have hufb : u.fb = d.1 := hfb
  rw [State.spriteCovers_congr hmem hi hx hy] at he
  refine ⟨?_, (State.reg_VF_drawn_eq_one_iff he).trans ?_⟩
  · exact hd.twice he hfb
  · refine exists₂_congr fun py px => and_congr_right fun hP => ?_
    have hne := (hd.pixel py px).2 hP
    rw [hufb, Bool.eq_not.2 hne, Bool.not_eq_true']

end Sys2Proof.Machine
end

section
/-! PROOFS. What any instruction can do (00_scope.md R15, 10_state.md sections 1 and 8): it answers a next state,
changes what its rule lists, and either raises a report and nothing else or raises none. Who owns which part of the
state is read off the lists. -/

namespace Sys2Proof.Machine

/-! ## The frame of every instruction -/

theorem State.Frame.ifRange_of_ok {s t : State} {n : Nat} {W : Part → Prop} (h : s.RangeOk n) (hf : s.Frame t W) :
    s.Frame t (ifRange s n W) :=
  hf.mono fun _ hp => .inl ⟨h, hp⟩

theorem State.frame_raise_ifRange {s : State} {n : Nat} (h : ¬ s.RangeOk n) (r : Report) (W : Part → Prop) :
    s.Frame (s.raise r) (ifRange s n W) :=
  (s.onlyChanged_raise r).frame fun _ hp => .inr ⟨h, hp⟩

theorem exec_ret_frame (s : State) : ∃ t, exec .ret s = .next t ∧ s.Frame t (Writes .ret s) := by
  obtain ⟨hpop, hempty⟩ := returnPopsThePc s
  by_cases hsp : s.sp.val = 0
  · obtain ⟨t, ht, _, _, hframe⟩ := hempty hsp
    exact ⟨t, ht, hframe.frame fun _ hp => .inr ⟨hsp, hp⟩⟩
  · obtain ⟨t, ht, _, _, hframe⟩ := hpop ⟨s.sp.val - 1, by omega⟩ (by simp only; omega)
    exact ⟨t, ht, hframe.frame fun _ hp => .inl ⟨hsp, hp⟩⟩

theorem exec_call_frame (nnn : Addr12) (s : State) :
    ∃ t, exec (.call nnn) s = .next t ∧ s.Frame t (Writes (.call nnn) s) := by
  obtain ⟨hpush, hfull⟩ := callPushesAndJumps s nnn
  by_cases hsp : s.sp.val = 16
  · obtain ⟨t, ht, _, _, hframe⟩ := hfull hsp
    exact ⟨t, ht, hframe.frame fun _ hp => .inr ⟨hsp, hp⟩⟩
  · obtain ⟨t, ht, _, _, _, hframe⟩ := hpush ⟨s.sp.val, by omega⟩ rfl
    refine ⟨t, ht, hframe.frame fun p hp => .inl ⟨hsp, ?_⟩⟩
    obtain rfl | hp := List.mem_cons.1 hp
    · exact .inr ⟨_, rfl, rfl⟩
    · exact .inl hp

theorem exec_ldVxK_frame (x : Reg) (s : State) :
    ∃ t, exec (.ldVxK x) s = .next t ∧ s.Frame t (Writes (.ldVxK x) s) := by
  obtain ⟨hidle, hnone, hsome⟩ := keyWaitStateMachine s x
  cases hw : s.wait with
  | idle =>
    obtain ⟨t, ht, _, _, _, hframe⟩ := hidle hw
    exact ⟨t, ht, hframe.frame fun p hp => by simpa only [Writes, hw] using hp⟩
  | awaitingKey =>
    cases hr : s.lastRel with
    | none =>
      obtain ⟨t, ht, _, hframe⟩ := hnone hw hr
      exact ⟨t, ht, hframe.frame_eq.mono fun p hp => by simpa only [Writes, hw, hr] using hp⟩
    | some k =>
      obtain ⟨t, ht, _, _, _, hframe⟩ := hsome k hw hr
      exact ⟨t, ht, hframe.frame (by simp [Writes, hw, hr])⟩

theorem exec_frame_exists (i : Instr) (s : State) : ∃ t, exec i s = .next t ∧ s.Frame t (Writes i s) := by
  cases i with
  | cls => exact ⟨_, rfl, s.frame_setFb _⟩
  | ret => exact exec_ret_frame s
  | sys => exact ⟨_, rfl, (s.onlyChanged_refl []).frame (by simp)⟩
  | call nnn => exact exec_call_frame nnn s
  | jp | jpV0 => exact ⟨_, rfl, (s.onlyChanged_jump _).frame_eq⟩
  | seImm | sneImm | seReg | sneReg | skp | sknp => exact ⟨_, rfl, (s.onlyChanged_skipIf _).frame_eq⟩
  | ldImm | addImm | ldReg | orReg | andReg | xorReg | ldVxDT =>
    exact ⟨_, rfl, (s.onlyChanged_setReg (List.mem_singleton_self _) _).frame_eq⟩
  | addReg | subReg | shr | subnReg | shl => exact ⟨_, rfl, s.onlyChanged_setReg_setReg (by simp) (by simp) _ _⟩
  | rnd x nn =>
    obtain ⟨t, ht, hframe, _⟩ := randomByteIsMasked s x nn
    exact ⟨t, ht, hframe⟩
  | ldI | addI | ldF => exact ⟨_, rfl, (s.onlyChanged_setI _).frame_eq⟩
  | ldDTVx => exact ⟨_, rfl, (s.onlyChanged_setDt _).frame_eq⟩
  | ldSTVx => exact ⟨_, rfl, (s.onlyChanged_setSt _).frame_eq⟩
  | ldVxK x => exact exec_ldVxK_frame x s
  | drw x y n =>
    by_cases h : s.RangeOk n.toNat
    · obtain ⟨t, ht, _, _, _, hframe⟩ := drawInvertsCoveredPixels s x y n h
      exact ⟨t, ht, hframe.ifRange_of_ok h⟩
    · exact ⟨_, State.withBlock_of_not_rangeOk h _, State.frame_raise_ifRange h _ _⟩
  | ldB x =>
    by_cases h : s.RangeOk 3
    · obtain ⟨t, _, _, _, ht, _, _, _, _, _, _, _, hframe⟩ := decimalDigitsAreStored s x h
      exact ⟨t, ht, hframe.ifRange_of_ok h⟩
    · exact ⟨_, State.storeBlock_of_not_rangeOk h, State.frame_raise_ifRange h _ _⟩
  | ldIVx x =>
    by_cases h : s.RangeOk (x.val + 1)
    · obtain ⟨t, ht, _, hframe⟩ := registersAreStored s x h
      exact ⟨t, ht, hframe.ifRange_of_ok h⟩
    · have hlen : ¬ s.RangeOk (s.regBlock x).length := by rwa [State.length_regBlock]
      exact ⟨_, State.storeBlock_of_not_rangeOk hlen, State.frame_raise_ifRange h _ _⟩
  | ldVxI x =>
    by_cases h : s.RangeOk (x.val + 1)
    · obtain ⟨t, ht, _, hframe⟩ := registersAreLoaded s x h
      exact ⟨t, ht, hframe.ifRange_of_ok h⟩
    · exact ⟨_, State.withBlock_of_not_rangeOk h _, State.frame_raise_ifRange h _ _⟩

theorem exec_frame {i : Instr} {s t : State} (h : exec i s = .next t) : s.Frame t (Writes i s) := by
  obtain ⟨t', ht', hframe⟩ := exec_frame_exists i s
  obtain rfl := exec_next_inj h ht'
  exact hframe

/-! ## A report alone, or none -/

/-- `t` is `s` with a report raised (R105). -/
def State.Raises (s t : State) : Prop := ∃ r, t = s.raise r ∧ r ≠ .none

/-- From `s` to `t` nothing is reported, and memory is as before or has one block written at I. -/
structure State.Completes (s t : State) : Prop where
  report : t.report = s.report
  reportLog : t.reportLog = s.reportLog
  mem : t.mem = s.mem ∨ ∃ bs, s.mem.writeBytes s.i.toNat bs = some t.mem

theorem State.storeBlock_raises_or_completes (s : State) (bs : List Byte) :
    ∃ t, s.storeBlock bs = .next t ∧ (s.Raises t ∨ s.Completes t) := by
  obtain ⟨_, m, hm, hstore⟩ | ⟨_, hraise⟩ := s.storeBlock_cases bs
  · exact ⟨_, hstore, .inr ⟨rfl, rfl, .inr ⟨bs, hm⟩⟩⟩
  · exact ⟨_, hraise, .inl ⟨_, rfl, nofun⟩⟩

theorem State.withBlock_raises_or_completes {s : State} {n : Nat} {use : List Byte → State}
    (h : ∀ bs, s.Completes (use bs)) :
    ∃ t, s.withBlock n use = .next t ∧ (s.Raises t ∨ s.Completes t) := by
  by_cases hrange : s.RangeOk n
  · exact ⟨_, State.withBlock_of_rangeOk hrange _, .inr (h _)⟩
  · exact ⟨_, State.withBlock_of_not_rangeOk hrange _, .inl ⟨_, rfl, nofun⟩⟩

theorem exec_raises_or_completes (i : Instr) (s : State) :
    ∃ t, exec i s = .next t ∧ (s.Raises t ∨ s.Completes t) := by
  cases i with
  | ret =>
    by_cases hsp : 0 < s.sp.val
    · exact ⟨_, exec_ret_of_held hsp, .inr ⟨rfl, rfl, .inl rfl⟩⟩
    · exact ⟨_, exec_ret_of_empty hsp, .inl ⟨_, rfl, nofun⟩⟩
  | call nnn =>
    by_cases hsp : s.sp.val < 16
    · exact ⟨_, exec_call_of_room nnn hsp, .inr ⟨rfl, rfl, .inl rfl⟩⟩
    · exact ⟨_, exec_call_of_full nnn hsp, .inl ⟨_, rfl, nofun⟩⟩
  | seImm | sneImm | seReg | sneReg | skp | sknp => exact ⟨_, rfl, .inr ⟨by simp, by simp, .inl (by simp)⟩⟩
  | ldVxK x =>
    cases hw : s.wait with
    | idle => exact ⟨_, exec_ldVxK_of_idle x hw, .inr ⟨rfl, rfl, .inl rfl⟩⟩
    | awaitingKey =>
      cases hr : s.lastRel with
      | none => exact ⟨_, exec_ldVxK_of_none x hw hr, .inr ⟨rfl, rfl, .inl rfl⟩⟩
      | some k => exact ⟨_, exec_ldVxK_of_some x hw hr, .inr ⟨rfl, rfl, .inl rfl⟩⟩
  | drw => exact State.withBlock_raises_or_completes fun _ => ⟨rfl, rfl, .inl rfl⟩
  | ldVxI =>
    refine State.withBlock_raises_or_completes fun bs => ?_
    rw [State.loadRegs_eq]
    exact ⟨rfl, rfl, .inl rfl⟩
  | ldB | ldIVx => exact s.storeBlock_raises_or_completes _
  | _ => exact ⟨_, rfl, .inr ⟨rfl, rfl, .inl rfl⟩⟩

theorem exec_cases {i : Instr} {s t : State} (h : exec i s = .next t) :
    s.Raises t ∨ s.Completes t := by
  obtain ⟨t', ht', hcases⟩ := exec_raises_or_completes i s
  obtain rfl := exec_next_inj h ht'
  exact hcases

/-! ## Parts no list names -/

/-- Whatever its state, a key wait lists no more than these. -/
theorem mem_of_writes_ldVxK {x : Reg} {s : State} {p : Part} (h : Writes (.ldVxK x) s p) :
    p ∈ [Part.reg x, .lastRel, .wait, .pc] := by
  simp only [Writes] at h
  split at h <;> simp at h ⊢ <;> tauto

theorem not_writes_key (i : Instr) (s : State) (k : Key) : ¬ Writes i s (.key k) := by
  cases i with
  | ldVxK => exact fun h => by simpa using mem_of_writes_ldVxK h
  | _ => simp [Writes, ifRange]

theorem not_writes_wait {i : Instr} (h : ∀ x, i ≠ .ldVxK x) (s : State) :
    ¬ Writes i s .lastRel ∧ ¬ Writes i s .wait := by
  cases i with
  | ldVxK x => exact absurd rfl (h x)
  | _ => simp [Writes, ifRange]

theorem not_writes_dt {i : Instr} (h : ∀ x, i ≠ .ldDTVx x) (s : State) : ¬ Writes i s .dt := by
  cases i with
  | ldDTVx x => exact absurd rfl (h x)
  | ldVxK => exact fun h => by simpa using mem_of_writes_ldVxK h
  | _ => simp [Writes, ifRange]

theorem not_writes_st {i : Instr} (h : ∀ x, i ≠ .ldSTVx x) (s : State) : ¬ Writes i s .st := by
  cases i with
  | ldSTVx x => exact absurd rfl (h x)
  | ldVxK => exact fun h => by simpa using mem_of_writes_ldVxK h
  | _ => simp [Writes, ifRange]

theorem not_writes_pixel {i : Instr} (hcls : i ≠ .cls) (hdrw : ∀ x y n, i ≠ .drw x y n) (s : State) (y : Fin 32)
    (x : Fin 64) : ¬ Writes i s (.pixel y x) := by
  cases i with
  | cls => exact absurd rfl hcls
  | drw x y n => exact absurd rfl (hdrw x y n)
  | ldVxK => exact fun h => by simpa using mem_of_writes_ldVxK h
  | _ => simp [Writes, ifRange]

/-- An instruction whose x is not 15 lists VF only if it is one of the six flag writers. -/
theorem not_writes_VF {i : Instr} (hx : xField i ≠ some VF) (hflag : writesFlag i = false) (s : State) :
    ¬ Writes i s (.reg VF) := by
  cases i with
  | ldVxK x =>
    have hne : VF ≠ x := fun h => hx (congrArg some h.symm)
    exact fun h => by simpa [hne] using mem_of_writes_ldVxK h
  | ldVxI x =>
    have hlt : x < VF := lt_of_le_of_ne (Fin.le_last x) (by simpa [xField] using hx)
    simp [Writes, ifRange, hlt]
  | _ => simp_all [Writes, ifRange, xField, writesFlag, eq_comm]

/-! ## Who writes what -/

theorem State.keys_eq_of_isDown {s t : State} (h : ∀ k, t.isDown k = s.isDown k) : t.keys = s.keys :=
  Vector.ext fun k hk => h ⟨k, hk⟩

/-- Settles O51: for instructions by the lists, for events and the load by what each one writes. -/
theorem ownersAloneWriteTheirState : Obligations.OwnersAloneWriteTheirState := by
  refine ⟨fun i s t h => ?_, fun e s => ?_, fun s t offset bytes h => ?_⟩
  · have hframe := exec_frame h
    refine ⟨State.keys_eq_of_isDown fun k => hframe (.key k) (not_writes_key i s k), fun hi => ⟨?_, ?_⟩, fun hi => ?_,
      fun hi => ?_, fun hcls hdrw => ?_⟩
    · exact hframe .lastRel (not_writes_wait hi s).1
    · exact hframe .wait (not_writes_wait hi s).2
    · exact hframe .dt (not_writes_dt hi s)
    · exact hframe .st (not_writes_st hi s)
    · exact Framebuffer.ext_pixel fun y x => hframe (.pixel y x) (not_writes_pixel hcls hdrw s y x)
  · cases e <;> simp [State.event]
  · obtain ⟨_, m, _, hload⟩ | ⟨_, hfault⟩ := s.load_cases offset bytes
    · obtain rfl := Host.Outcome.next.inj (h.symm.trans hload)
      rfl
    · cases h.symm.trans hfault

theorem toNat_noBorrowFlag_le_one (a b : Byte) : (noBorrowFlag a b).toNat ≤ 1 := by
  rw [toNat_noBorrowFlag]
  split <;> omega

/-- Settles O32: who is none of the six does not list VF; each of the six leaves a flag there, unless a draw reports. -/
theorem onlyFlagWritersWriteVF : Obligations.OnlyFlagWritersWriteVF := by
  intro i s t h hx
  refine ⟨fun hflag => exec_frame h (.reg VF) (not_writes_VF hx hflag s), fun hflag hlog => ?_⟩
  cases i with
  | addReg x y =>
    obtain ⟨t', ht', _, _, hVF⟩ := addSetsCarryLast s x y
    obtain rfl := exec_next_inj h ht'
    rw [hVF]
    split <;> omega
  | subReg x y =>
    obtain rfl := exec_next_inj h (exec_subReg_eq x y s)
    rw [State.reg_VF_subInto _ _ _ _ fun hxF => hx (congrArg some hxF)]
    exact toNat_noBorrowFlag_le_one _ _
  | subnReg x y =>
    obtain rfl := exec_next_inj h (exec_subnReg_eq x y s)
    rw [State.reg_VF_subInto _ _ _ _ fun hxF => hx (congrArg some hxF)]
    exact toNat_noBorrowFlag_le_one _ _
  | shr x y =>
    obtain ⟨_, _, ⟨t', ht', _, hlost, _⟩, _⟩ := shiftsPutTheLostBitInVF s x y y
    obtain rfl := exec_next_inj h ht'
    have := (hlost fun hxF => hx (congrArg some hxF)).2
    omega
  | shl x y =>
    obtain ⟨_, _, _, t', ht', _, hlost, _⟩ := shiftsPutTheLostBitInVF s x y y
    obtain rfl := exec_next_inj h ht'
    have := (hlost fun hxF => hx (congrArg some hxF)).2
    have := (s.reg x).isLt
    omega
  | drw x y n =>
    by_cases hrange : s.RangeOk n.toNat
    · obtain ⟨t', ht', _, _, hle, _⟩ := drawInvertsCoveredPixels s x y n hrange
      obtain rfl := exec_next_inj h ht'
      exact hle
    · obtain rfl := exec_next_inj h (State.withBlock_of_not_rangeOk hrange _)
      simp at hlog
  | _ => cases hflag

end Sys2Proof.Machine
end

section
/-! PROOFS. The step (40_step_cycle.md R101 to R107): one equation for each way it can end, and from them what every
step reports and changes. -/

namespace Sys2Proof.Machine

/-! ## The three ends of a step -/

section
variable {s : State} {op : Word}

theorem step_of_fetch_none (hf : s.fetch = none) : step s = .next (s.arrive.raise (.memoryBounds s.pc)) := by
  simp [step, State.stepBlock, hf]

theorem step_of_decode_error {r : DecodeReject} (hf : s.fetch = some op) (hd : decode op = .error r) :
    step s = .next (s.arrive.advance.raise (.decodeError op)) := by
  simp [step, State.stepBlock, hf, hd]

theorem step_of_decode {i : Instr} (hf : s.fetch = some op) (hd : decode op = .ok i) :
    step s = exec i s.arrive.advance := by
  simp [step, State.stepBlock, hf, hd]

/-- The fetch fails exactly beyond the last word of memory (R102, D5). -/
theorem State.fetch_eq_none_iff : s.fetch = none ↔ 0xFFF ≤ s.pc.toNat := by
  have hsize : Config.memSize = 4096 := rfl
  rw [State.fetch_eq]
  split <;> simp <;> omega

end

theorem State.pc_lt_of_fetch {s : State} {op : Word} (hf : s.fetch = some op) : s.pc.toNat < 0xFFF :=
  Nat.lt_of_not_le fun hle => by simp [State.fetch_eq_none_iff.2 hle] at hf

theorem toNat_add_two (w : Word) : (w + 2).toNat = (w.toNat + 2) % 65536 :=
  BitVec.toNat_add _ _

/-- After a fetch the advance does not wrap (D12). -/
theorem State.toNat_advance_pc_of_fetch {s : State} {op : Word} (hf : s.fetch = some op) :
    s.arrive.advance.pc.toNat = s.pc.toNat + 2 := by
  have := State.pc_lt_of_fetch hf
  rw [State.advance_pc, State.arrive_pc, toNat_add_two]
  omega

/-- What happens before a step changes no part that the step reads for its fetch (R216; log entry 3). -/
theorem State.frame_arrive (s : State) :
    s.Frame s.arrive (fun p => p ∈ [Part.dt, .st, .lastRel, .arrivals] ∨ ∃ k, p = .key k) := by
  intro p hp
  cases p with
  | dt | st | lastRel | arrivals | key => simp at hp
  | _ => simp [State.SameAt]

/-- Settles O6: the two bytes at PC are the word the fetch gives. -/
theorem stepRunsDecodedInstruction : Obligations.StepRunsDecodedInstruction := by
  intro s hi lo op i hhi hlo hop hd
  have hword : wordOfBytes hi lo = op := BitVec.eq_of_toNat_eq ((toNat_wordOfBytes hi lo).trans hop.symm)
  have hf : s.fetch = some op := hword ▸ State.fetch_of_reads hhi hlo
  refine ⟨step_of_decode hf hd, State.arrive_of_none, fun _ _ => State.arrive_of_cons, s.frame_arrive, ?_, rfl,
    State.onlyChanged_advance _⟩
  rw [State.advance_pc, State.arrive_pc, toNat_add_two]

/-! ## Steps that report -/

theorem State.onlyChanged_advance_raise (s : State) (r : Report) :
    s.OnlyChanged (s.advance.raise r) [.pc, .report, .reportLog] :=
  State.Frame.trans (s.onlyChanged_advance.frame (by simp)) ((State.onlyChanged_raise _ r).frame (by simp))

/-- Settles O7: the advance and the report are the whole of it. -/
theorem unrecognizedOpcodeOnlyAdvancesPc : Obligations.UnrecognizedOpcodeOnlyAdvancesPc := by
  intro s op hf hd
  refine ⟨_, step_of_decode_error hf hd, ?_, rfl, ?_, State.onlyChanged_advance_raise _ _⟩
  · rw [State.raise_pc, State.advance_pc, State.arrive_pc, toNat_add_two]
  · simp

/-- Settles O8, by induction on the steps: each one leaves the PC that the next one fetches at. -/
theorem fetchBeyondMemoryMakesNoProgress : Obligations.FetchBeyondMemoryMakesNoProgress := by
  intro s k hpc
  induction k generalizing s with
  | zero =>
    refine ⟨_, core_run_succ_of_next 0 (step_of_fetch_none (State.fetch_eq_none_iff.2 hpc)), ?_, rfl, ?_, fun h => ?_⟩
    · simp
    · simp
    · rw [State.arrive_of_none h]
      exact s.onlyChanged_raise _
  | succ k ih =>
    obtain ⟨t, hrun, htpc, hreport, hlog, hframe⟩ := ih (s.arrive.raise (.memoryBounds s.pc)) (by simpa using hpc)
    rw [State.raise_pc, State.arrive_pc] at htpc hreport hlog
    refine ⟨t, (core_run_succ_of_next _ (step_of_fetch_none (State.fetch_eq_none_iff.2 hpc))).trans hrun, htpc, hreport,
      ?_, fun h => ?_⟩
    · rw [hlog, List.replicate_succ' (n := k + 1)]
      simp
    · have hfirst := s.onlyChanged_raise (.memoryBounds s.pc)
      rw [State.arrive_of_none h] at hframe
      exact State.Frame.trans hfirst (hframe h)

/-- Settles O11: a step ends in a fetch fault, in an unrecognized opcode, or in an instruction, which raises or
completes. -/
theorem reportingStepChangesNothingElse : Obligations.ReportingStepChangesNothingElse := by
  intro s t h
  obtain ⟨_, rfl⟩ | ⟨op, _, _, _, rfl⟩ | ⟨op, i, _, _, hexec⟩ := step_cases h
  · exact .inr ⟨nofun, by simp, .inl (by simp), (State.onlyChanged_raise _ _).frame (by simp)⟩
  · exact .inr ⟨nofun, by simp, .inr (by simp), State.onlyChanged_advance_raise _ _⟩
  · obtain ⟨r, rfl, hr⟩ | hcompletes := exec_cases hexec
    · exact .inr ⟨hr, by simp, .inr (by simp), State.onlyChanged_advance_raise _ _⟩
    · exact .inl ⟨hcompletes.report, hcompletes.reportLog.trans (by simp)⟩

/-! ## Every step -/

theorem exec_exists (i : Instr) (s : State) : ∃ t, exec i s = .next t := by
  obtain ⟨t, ht, _⟩ := exec_raises_or_completes i s
  exact ⟨t, ht⟩

/-- Settles O9: the fetch and the decoder fail into reports, and every instruction answers a next state. -/
theorem everyStateHasAStep : Obligations.EveryStateHasAStep := by
  refine ⟨exec_exists, fun s => ?_⟩
  cases hf : s.fetch with
  | none => exact ⟨_, step_of_fetch_none hf⟩
  | some op =>
    cases hd : decode op with
    | error => exact ⟨_, step_of_decode_error hf hd⟩
    | ok i =>
      rw [step_of_decode hf hd]
      exact exec_exists i _

/-- Settles O10: the advance, and then the instruction's own list. -/
theorem stepChangesOnlyWhatTheRuleLists : Obligations.StepChangesOnlyWhatTheRuleLists := by
  intro s t op i hf hd h
  rw [step_of_decode hf hd] at h
  exact (s.arrive.onlyChanged_advance.frame (by simp)).trans ((exec_frame h).mono fun _ hp => .inr (.inr hp))

end Sys2Proof.Machine
end

section
/-! PROOFS. The invariants (10_state.md R24, 20_memory.md, 45_keypad.md R174(e)): each is kept by every step, by the
three ends of a step and what an instruction can do; and canonical memories are known by their bytes. -/

namespace Sys2Proof.Machine

/-! ## Canonical memory (log entry 9) -/

theorem exec_keeps_mem_wf {i : Instr} {s t : State} (h : exec i s = .next t) (hm : s.mem.wf = true) :
    t.mem.wf = true := by
  obtain ⟨r, rfl, _⟩ | hcompletes := exec_cases h
  · exact hm
  · obtain heq | ⟨bs, hwrite⟩ := hcompletes.mem
    · rwa [heq]
    · exact Memory.wf_writeBytes hwrite hm

/-- Settles O12: a step writes memory by at most one block write, which keeps the form. -/
theorem stepKeepsMemoryCanonical : Obligations.StepKeepsMemoryCanonical := by
  intro s t hm h
  obtain ⟨_, rfl⟩ | ⟨op, _, _, _, rfl⟩ | ⟨op, i, _, _, hexec⟩ := step_cases h
  · simpa using hm
  · simpa using hm
  · exact exec_keeps_mem_wf hexec (by simpa using hm)

/-- Outside the addresses a canonical list may hold, it reads as unlisted memory does. -/
theorem Memory.get_of_outside {m : Memory} {lo a : Nat} (h : Memory.wfFrom lo m = true)
    (ha : a < lo ∨ Config.memSize ≤ a) : m.get a = Memory.unlisted a := by
  induction m generalizing lo with
  | nil => rfl
  | cons c m ih =>
    obtain ⟨k, b⟩ := c
    obtain ⟨hlo, hk, _, hm⟩ := Memory.wfFrom_cons.1 h
    rw [Memory.get, if_neg (by omega)]
    exact ih hm (by omega)

/-- A canonical list lists no byte in vain. -/
theorem Memory.get_head_ne_unlisted {k lo : Nat} {b : Byte} {m : Memory} (h : Memory.wfFrom lo ((k, b) :: m) = true) :
    Memory.get ((k, b) :: m) k ≠ Memory.unlisted k := by
  obtain ⟨_, _, hb, _⟩ := Memory.wfFrom_cons.1 h
  rwa [Memory.get, if_pos rfl]

/-- So its first address is the first that does not read as unlisted. -/
theorem Memory.head_le_of_get_ne {k a lo : Nat} {b : Byte} {m : Memory} (h : Memory.wfFrom lo ((k, b) :: m) = true)
    (ha : Memory.get ((k, b) :: m) a ≠ Memory.unlisted a) : k ≤ a := by
  obtain ⟨_, hk, hb, hm⟩ := Memory.wfFrom_cons.1 h
  by_contra hlt
  exact ha (Memory.get_of_outside (Memory.wfFrom_cons.2 ⟨le_refl k, hk, hb, hm⟩) (.inl (by omega)))

theorem Memory.eq_of_get_eq {m m' : Memory} {lo : Nat} (h : Memory.wfFrom lo m = true)
    (h' : Memory.wfFrom lo m' = true) (hget : ∀ a, m.get a = m'.get a) : m = m' := by
  induction m generalizing m' lo with
  | nil =>
    cases m' with
    | nil => rfl
    | cons c' m' => exact absurd (hget c'.1).symm (Memory.get_head_ne_unlisted h')
  | cons c m ih =>
    cases m' with
    | nil => exact absurd (hget c.1) (Memory.get_head_ne_unlisted h)
    | cons c' m' =>
      obtain ⟨k, b⟩ := c
      obtain ⟨k', b'⟩ := c'
      have hle : k ≤ k' := Memory.head_le_of_get_ne h (hget k' ▸ Memory.get_head_ne_unlisted h')
      have hle' : k' ≤ k := Memory.head_le_of_get_ne h' (hget k ▸ Memory.get_head_ne_unlisted h)
      obtain rfl : k = k' := le_antisymm hle hle'
      obtain ⟨_, _, _, hm⟩ := Memory.wfFrom_cons.1 h
      obtain ⟨_, _, _, hm'⟩ := Memory.wfFrom_cons.1 h'
      have hbyte : b = b' := by simpa [Memory.get] using hget k
      have htail : m = m' := ih hm hm' fun a => by
        by_cases ha : k = a
        · rw [Memory.get_of_outside hm (by omega), Memory.get_of_outside hm' (by omega)]
        · simpa [Memory.get, ha] using hget a
      rw [hbyte, htail]

/-- Settles O16, entry by entry: the lists start at the same address with the same byte. -/
theorem memoriesThatReadAlikeAreEqual : Obligations.MemoriesThatReadAlikeAreEqual := by
  intro m m' h h' hread
  refine Memory.eq_of_get_eq h h' fun a => ?_
  by_cases ha : a < Config.memSize
  · simpa [Memory.read_eq, ha] using hread a
  · rw [Memory.get_of_outside h (.inr (by omega)), Memory.get_of_outside h' (.inr (by omega))]

/-! ## Addresses (R24) -/

/-- The return addresses held are in R24's range. -/
def State.HeldInRange (s : State) : Prop := ∀ j : Fin 16, j.val < s.sp.val → s.stack[j.val].toNat ≤ 0x1000

/-- Where neither SP nor a slot is written, only the new PC is in question. -/
theorem State.addressesInRange_of_frame {s t : State} {W : Part → Prop} (hframe : s.Frame t W) (hsp : ¬ W .sp)
    (hslot : ∀ j, ¬ W (.slot j)) (hheld : s.HeldInRange) (hpc : t.pc.toNat ≤ 0x10FE) : t.AddressesInRange := by
  refine ⟨hpc, fun j hj => ?_⟩
  have hsame : t.sp = s.sp := hframe .sp hsp
  have hsameSlot : t.stack[j.val] = s.stack[j.val] := hframe (.slot j) (hslot j)
  rw [hsameSlot]
  exact hheld j (hsame ▸ hj)

theorem State.addressesInRange_skipIf {s : State} (c : Bool) (hheld : s.HeldInRange) (hpc : s.pc.toNat ≤ 0x1000) :
    (s.skipIf c).AddressesInRange := by
  refine State.addressesInRange_of_frame (s.onlyChanged_skipIf c) (by simp) (by simp) hheld ?_
  rw [s.toNat_skipIf_pc Iff.rfl]
  split <;> omega

/-- The instructions from a state whose PC is the address after a fetch: 0x1000 at most, and room for a rewind. -/
theorem exec_addressesInRange {i : Instr} {s t : State} (h : exec i s = .next t) (hheld : s.HeldInRange)
    (hlo : 2 ≤ s.pc.toNat) (hhi : s.pc.toNat ≤ 0x1000) : t.AddressesInRange := by
  have hframe := exec_frame h
  cases i with
  | jp nnn =>
    obtain rfl := Host.Outcome.next.inj h
    have := nnn.isLt
    exact ⟨by rw [State.jump_pc, toNat_addrOperand]; omega, hheld⟩
  | jpV0 nnn =>
    obtain rfl := Host.Outcome.next.inj h
    have := nnn.isLt
    have := (s.reg 0).isLt
    exact ⟨by rw [State.jump_pc, toNat_addrOperand_add_byteOperand]; omega, hheld⟩
  | seImm | sneImm | seReg | sneReg | skp | sknp =>
    obtain rfl := Host.Outcome.next.inj h
    exact State.addressesInRange_skipIf _ hheld hhi
  | ret =>
    by_cases hsp : 0 < s.sp.val
    · obtain rfl := exec_next_inj h (exec_ret_of_held hsp)
      have hpop := hheld ⟨s.sp.val - 1, by omega⟩ (by simp only; omega)
      exact ⟨le_trans hpop (by decide), fun j hj => hheld j (by simp only [State.returned] at hj; omega)⟩
    · obtain rfl := exec_next_inj h (exec_ret_of_empty hsp)
      exact ⟨le_trans hhi (by decide), hheld⟩
  | call nnn =>
    by_cases hsp : s.sp.val < 16
    · obtain rfl := exec_next_inj h (exec_call_of_room nnn hsp)
      have := nnn.isLt
      refine ⟨by simp only [State.called, toNat_addrOperand]; omega, fun j hj => ?_⟩
      rw [State.called_stack]
      split
      · exact hhi
      · exact hheld j (by simp only [State.called] at hj; omega)
    · obtain rfl := exec_next_inj h (exec_call_of_full nnn hsp)
      exact ⟨le_trans hhi (by decide), hheld⟩
  | ldVxK x =>
    cases hw : s.wait with
    | idle =>
      obtain rfl := exec_next_inj h (exec_ldVxK_of_idle x hw)
      exact ⟨by rw [State.jump_pc, toNat_sub_two]; omega, hheld⟩
    | awaitingKey =>
      cases hr : s.lastRel with
      | none =>
        obtain rfl := exec_next_inj h (exec_ldVxK_of_none x hw hr)
        exact ⟨by rw [State.jump_pc, toNat_sub_two]; omega, hheld⟩
      | some k =>
        obtain rfl := exec_next_inj h (exec_ldVxK_of_some x hw hr)
        exact ⟨le_trans hhi (by decide), hheld⟩
  | _ =>
    have hpc : t.pc = s.pc := hframe .pc (by simp [Writes, ifRange])
    refine State.addressesInRange_of_frame hframe (by simp [Writes, ifRange]) (by simp [Writes, ifRange]) hheld ?_
    rw [hpc]; omega

/-- Settles O13: a fetch that succeeds was made below 0xFFF, so the advanced PC is 0x1000 at most. -/
theorem stepKeepsAddressesInRange : Obligations.StepKeepsAddressesInRange := by
  rintro s t ⟨hpc, hheld⟩ h
  have harrive : s.arrive.HeldInRange := by simpa [State.HeldInRange] using hheld
  have hadvanced {op : Word} (hf : s.fetch = some op) :
      2 ≤ s.arrive.advance.pc.toNat ∧ s.arrive.advance.pc.toNat ≤ 0x1000 := by
    have := State.pc_lt_of_fetch hf
    rw [State.toNat_advance_pc_of_fetch hf]
    omega
  obtain ⟨_, rfl⟩ | ⟨op, _, hf, _, rfl⟩ | ⟨op, i, hf, _, hexec⟩ := step_cases h
  · exact ⟨by simpa using hpc, harrive⟩
  · exact ⟨le_trans (hadvanced hf).2 (by decide), harrive⟩
  · exact exec_addressesInRange hexec harrive (hadvanced hf).1 (hadvanced hf).2

/-! ## The key wait (R174(e)) -/

/-- The awaiting of a key begins and goes on at an Fx0A alone, and either rewinds to it. -/
theorem exec_ldVxK_waiting {x : Reg} {s t : State} (h : exec (.ldVxK x) s = .next t) (hw : t.wait = .awaitingKey) :
    t.pc = s.pc - 2 ∧ t.mem = s.mem := by
  cases hws : s.wait with
  | idle =>
    obtain rfl := exec_next_inj h (exec_ldVxK_of_idle x hws)
    exact ⟨rfl, rfl⟩
  | awaitingKey =>
    cases hr : s.lastRel with
    | none =>
      obtain rfl := exec_next_inj h (exec_ldVxK_of_none x hws hr)
      exact ⟨rfl, rfl⟩
    | some k =>
      obtain rfl := exec_next_inj h (exec_ldVxK_of_some x hws hr)
      cases hw

/-- Settles O14: any other end of a step would need the awaiting state to hold where no Fx0A is fetched. -/
theorem stepKeepsWaitingAtKeyWait : Obligations.StepKeepsWaitingAtKeyWait := by
  intro s t hs h hw
  obtain ⟨hf, rfl⟩ | ⟨op, r, hf, hd, rfl⟩ | ⟨op, i, hf, hd, hexec⟩ := step_cases h
  · obtain ⟨op, x, hf', _⟩ := hs (by simpa using hw)
    simp [hf] at hf'
  · obtain ⟨op', x, hf', hd'⟩ := hs (by simpa using hw)
    obtain rfl := Option.some.inj (hf.symm.trans hf')
    cases hd.symm.trans hd'
  · by_cases hi : ∃ x, i = .ldVxK x
    · obtain ⟨x, rfl⟩ := hi
      obtain ⟨hpc, hmem⟩ := exec_ldVxK_waiting hexec hw
      have hback : t.pc = s.pc := by rw [hpc, State.advance_pc, State.arrive_pc, BitVec.add_sub_cancel]
      exact ⟨op, x, (State.fetch_congr hback (by simp [hmem])).trans hf, hd⟩
    · have hsame : t.wait = s.arrive.advance.wait :=
        exec_frame hexec .wait (not_writes_wait (fun x hx => hi ⟨x, hx⟩) _).2
      obtain ⟨op', x, hf', hd'⟩ := hs (by simpa [hw] using hsame.symm)
      obtain rfl := Option.some.inj (hf.symm.trans hf')
      exact absurd ⟨x, Except.ok.inj (hd.symm.trans hd')⟩ hi

/-- Settles O15: memory lists nothing, no address is held, and no key is awaited. -/
theorem resetMeetsTheInvariants : Obligations.ResetMeetsTheInvariants :=
  ⟨State.reset_mem_wf, ⟨by decide, nofun⟩, nofun⟩

end Sys2Proof.Machine
end

section
/-! PROOFS. Events and steps together (60_exceptions.md section 3, 45_keypad.md, 41_flow.md): what a list of events
leaves, and runs of several steps with events between them. -/

namespace Sys2Proof.Machine

/-! ## Lists of events -/

/-- Settles O50, by induction on the list: a tick counts both timers down, no other event touches them. -/
theorem delayTimerCountsTicks : Obligations.DelayTimerCountsTicks := by
  intro s es
  induction es generalizing s with
  | nil => exact ⟨rfl, rfl⟩
  | cons e es ih =>
    rw [State.events_cons, (ih (s.event e)).1, (ih (s.event e)).2]
    cases e with
    | tick => simp [State.event, toNat_countDown]; omega
    | keyDown | keyUp | fbRead => exact ⟨rfl, rfl⟩

theorem State.events_lastRel_of_no_release {s : State} {es : List Event} (h : ∀ j, Event.keyUp j ∉ es) :
    (s.events es).lastRel = s.lastRel := by
  induction es generalizing s with
  | nil => rfl
  | cons e es ih =>
    rw [State.events_cons, ih fun j hj => h j (List.mem_cons_of_mem _ hj)]
    cases e with
    | keyUp j => exact absurd (List.mem_cons_self ..) (h j)
    | tick | keyDown | fbRead => rfl

theorem State.events_isDown_of_other_keys {s : State} {k : Key} {es : List Event} (hup : Event.keyUp k ∉ es)
    (hdown : Event.keyDown k ∉ es) : (s.events es).isDown k = s.isDown k := by
  induction es generalizing s with
  | nil => rfl
  | cons e es ih =>
    rw [List.mem_cons, not_or] at hup hdown
    rw [State.events_cons, ih hup.2 hdown.2]
    cases e with
    | keyUp j => exact (s.isDown_keyUp j k).trans (if_neg fun hkj => hup.1 (congrArg _ hkj))
    | keyDown j => exact (s.isDown_keyDown j k).trans (if_neg fun hkj => hdown.1 (congrArg _ hkj))
    | tick | fbRead => rfl

/-- A list cut at one of its events. -/
theorem State.events_append_cons (s : State) (es es' : List Event) (e : Event) :
    s.events (es ++ e :: es') = ((s.events es).event e).events es' := by
  rw [State.events_append, State.events_cons]

theorem State.events_lastRel_of_last_release (s : State) {k : Key} (es : List Event) {es' : List Event}
    (h : ∀ j, Event.keyUp j ∉ es') : (s.events (es ++ .keyUp k :: es')).lastRel = some k := by
  rw [State.events_append_cons, State.events_lastRel_of_no_release h]
  rfl

/-- Settles O54: what follows the last release, or the last press or release of a key, leaves what that one wrote. -/
theorem eventsActInOrderBeforeTheStep : Obligations.EventsActInOrderBeforeTheStep := by
  intro s es es' rest k
  refine ⟨State.arrive_of_none, State.arrive_of_cons, rfl, fun _ => rfl, s.events_append es es', fun h => ⟨?_, ?_⟩,
    fun hup hdown => ⟨?_, ?_, ?_⟩⟩
  · exact State.events_lastRel_of_no_release h
  · exact s.events_lastRel_of_last_release es h
  · exact State.events_isDown_of_other_keys hup hdown
  · rw [State.events_append_cons, State.events_isDown_of_other_keys hup hdown]
    exact (State.isDown_keyUp _ k k).trans (if_pos rfl)
  · rw [State.events_append_cons, State.events_isDown_of_other_keys hup hdown]
    exact (State.isDown_keyDown _ k k).trans (if_pos rfl)

/-! ## A waiting Fx0A -/

/-- Settles O55: the step sees the last release in LASTREL, and consumes it. -/
theorem keyWaitTakesTheLastRelease : Obligations.KeyWaitTakesTheLastRelease := by
  intro s op x k es es' rest hw hf hd harrivals hlast
  have hrel : s.arrive.advance.lastRel = some k := by
    rw [State.advance_lastRel, State.arrive_of_cons harrivals]
    exact State.events_lastRel_of_last_release _ es hlast
  have hexec := exec_ldVxK_of_some x (s := s.arrive.advance) (by simpa using hw) hrel
  refine ⟨_, (step_of_decode hf hd).trans hexec, ?_, rfl, rfl, State.toNat_advance_pc_of_fetch hf, rfl, ?_, ?_⟩
  · rw [State.reg_setReg_same, toNat_keyByte]
  · simp [harrivals]
  · exact State.Frame.trans (s.arrive.onlyChanged_advance.frame (by simp))
      (State.Frame.trans ((State.onlyChanged_setWait _ _ _).frame (by simp)) (State.onlyChanged_setReg _ (by simp) _))

theorem State.arrive_lastRel_of_no_release {s : State} (h : s.NoReleaseArrives) : s.arrive.lastRel = s.lastRel := by
  cases harrivals : s.arrivals with
  | nil => rw [State.arrive_of_none harrivals]
  | cons es rest =>
    rw [State.arrive_of_cons harrivals]
    exact State.events_lastRel_of_no_release fun j hj => h es (by simp [harrivals]) _ hj j rfl

/-- One step of a wait that no release ends. -/
theorem step_of_waiting {s : State} {op : Word} {x : Reg} (hw : s.wait = .awaitingKey) (hr : s.lastRel = none)
    (hno : s.NoReleaseArrives) (hf : s.fetch = some op) (hd : decode op = .ok (.ldVxK x)) :
    step s = .next (s.arrive.advance.jump s.pc) := by
  rw [step_of_decode hf hd, exec_ldVxK_of_none x (by simpa using hw)
    (by rw [State.advance_lastRel, State.arrive_lastRel_of_no_release hno, hr])]
  simp

/-- Settles O46, by induction on the steps: each leaves a state that waits in the same way. -/
theorem keyWaitHoldsWithoutRelease : Obligations.KeyWaitHoldsWithoutRelease := by
  intro s op x k hw hr hno hf hd
  induction k generalizing s with
  | zero => exact ⟨s, rfl, rfl, rfl, hw, hr, rfl⟩
  | succ k ih =>
    have hno' : (s.arrive.advance.jump s.pc).NoReleaseArrives := fun es hes =>
      hno es (List.mem_of_mem_tail (by simpa using hes))
    have hf' : (s.arrive.advance.jump s.pc).fetch = some op := (State.fetch_congr (by simp) (by simp)).trans hf
    have hr' : (s.arrive.advance.jump s.pc).lastRel = none := (State.arrive_lastRel_of_no_release hno).trans hr
    obtain ⟨t, hrun, hpc, hv, hwait, hrel, hlog⟩ := ih (s.arrive.advance.jump s.pc) (by simpa using hw) hr' hno' hf'
    exact ⟨t, (core_run_succ_of_next k (step_of_waiting hw hr hno hf hd)).trans hrun, hpc, hv.trans (by simp), hwait,
      hrel, hlog.trans (by simp)⟩

/-! ## A call and its return -/

/-- A return from a state that has the stack a call left. -/
theorem exec_ret_of_called {s t : State} {nnn : Addr12} {h : s.sp.val < 16} (hsp : t.sp = (s.called nnn h).sp)
    (hstack : t.stack = (s.called nnn h).stack) : exec .ret t = .next { t with sp := s.sp, pc := s.pc } := by
  have hval : t.sp.val = s.sp.val + 1 := congrArg Fin.val hsp
  have hback : t.sp.val - 1 = s.sp.val := by omega
  rw [exec_ret_of_held (by omega)]
  simp [State.returned, hback, hstack, State.called]

/-- Settles O25: the second step fetches the 00EE at the target and pops what the first one pushed. -/
theorem callThenReturnComesBack : Obligations.CallThenReturnComesBack := by
  intro s op nnn hf hd hsp hhi hlo
  have hroom : s.arrive.advance.sp.val < 16 := by simpa using hsp
  have hcall : step s = .next (s.arrive.advance.called nnn hroom) := by
    rw [step_of_decode hf hd, exec_call_of_room]
  have hpc : (s.arrive.advance.called nnn hroom).pc.toNat = nnn.toNat := toNat_addrOperand nnn
  have hmem : (s.arrive.advance.called nnn hroom).mem = s.mem := s.arrive_mem
  have hfetch : (s.arrive.advance.called nnn hroom).fetch = some 0x00EE :=
    State.fetch_of_reads (by rw [hmem, hpc, hhi]) (by rw [hmem, hpc, hlo])
  have hdecode : decode 0x00EE = .ok .ret := rfl
  have hret := (step_of_decode hfetch hdecode).trans
    (exec_ret_of_called (s := s.arrive.advance) (nnn := nnn) (h := hroom) (by simp) (by simp))
  refine ⟨_, (core_run_succ_of_next 1 hcall).trans (core_run_succ_of_next 0 hret), ?_, ?_, rfl, ?_, ?_⟩
  · exact State.toNat_advance_pc_of_fetch hf
  · exact s.arrive_sp
  · simp [State.called]
  · simp [State.called]

end Sys2Proof.Machine
end

section
/-! PROOFS. What no instruction sees: the slots at or above SP (10_state.md R26), the sound timer (R34), and VF where
no field names it (R21). -/

namespace Sys2Proof.Machine

/-! ## The stack and the sound timer, hidden from the instructions that do not name them -/

/-- The state with another stack and another sound timer. -/
def State.mapHidden (f : Vector Word 16 → Vector Word 16) (g : Byte → Byte) (s : State) : State :=
  { s with stack := f s.stack, st := g s.st }

section
variable (f : Vector Word 16 → Vector Word 16) (g : Byte → Byte) (s : State)

theorem State.mapHidden_skipIf (c : Bool) : (s.skipIf c).mapHidden f g = (s.mapHidden f g).skipIf c := by
  cases c <;> rfl

theorem State.mapHidden_loadRegs (k : Nat) (bs : List Byte) :
    (s.loadRegs k bs).mapHidden f g = (s.mapHidden f g).loadRegs k bs := by
  induction bs generalizing s k with
  | nil => rfl
  | cons b bs ih => exact ih (s.setReg (Fin.ofNat 16 k) b) (k + 1)

/-- The same next state but for what is hidden. -/
def Blind (o o' : Outcome) : Prop := ∃ t, o = .next t ∧ o' = .next (t.mapHidden f g)

theorem blind_storeBlock (bs : List Byte) : Blind f g (s.storeBlock bs) ((s.mapHidden f g).storeBlock bs) := by
  unfold State.storeBlock
  cases h : s.mem.writeBytes s.i.toNat bs with
  | none => exact ⟨_, rfl, by simp only [State.mapHidden, h]; rfl⟩
  | some m => exact ⟨_, rfl, by simp only [State.mapHidden, h]⟩

theorem blind_withBlock {n : Nat} {use use' : List Byte → State} (h : ∀ bs, use' bs = (use bs).mapHidden f g) :
    Blind f g (s.withBlock n use) ((s.mapHidden f g).withBlock n use') := by
  unfold State.withBlock
  cases hr : s.mem.readBytes s.i.toNat n with
  | none => exact ⟨_, rfl, by simp only [State.mapHidden, hr]; rfl⟩
  | some bs => exact ⟨_, rfl, by simp only [State.mapHidden, hr]; rw [h]; rfl⟩

theorem blind_exec {i : Instr} (hret : i ≠ .ret) (hcall : ∀ nnn, i ≠ .call nnn) (hst : ∀ x, i ≠ .ldSTVx x) :
    Blind f g (exec i s) (exec i (s.mapHidden f g)) := by
  cases i with
  | ret => exact absurd rfl hret
  | call nnn => exact absurd rfl (hcall nnn)
  | ldSTVx x => exact absurd rfl (hst x)
  | seImm | sneImm | seReg | sneReg | skp | sknp =>
    exact ⟨_, rfl, congrArg _ (s.mapHidden_skipIf f g _).symm⟩
  | drw => exact blind_withBlock f g s fun _ => rfl
  | ldVxI => exact blind_withBlock f g s fun bs => (s.mapHidden_loadRegs f g 0 bs).symm
  | ldB | ldIVx => exact blind_storeBlock f g s _
  | ldVxK x =>
    cases hw : s.wait with
    | idle => exact ⟨_, exec_ldVxK_of_idle x hw, exec_ldVxK_of_idle x (s := s.mapHidden f g) hw⟩
    | awaitingKey =>
      cases hr : s.lastRel with
      | none => exact ⟨_, exec_ldVxK_of_none x hw hr, exec_ldVxK_of_none x (s := s.mapHidden f g) hw hr⟩
      | some k => exact ⟨_, exec_ldVxK_of_some x hw hr, exec_ldVxK_of_some x (s := s.mapHidden f g) hw hr⟩
  | _ => exact ⟨_, rfl, rfl⟩

end

/-! ## Relations that every step keeps -/

/-- A relation kept by every phase of a step: the events before it, the fetch, the advance, a report, the execution. -/
structure StepCongruence (R : State → State → Prop) : Prop where
  arrivals : ∀ {s t}, R s t → t.arrivals = s.arrivals
  setArrivals : ∀ {s t}, R s t → ∀ a, R { s with arrivals := a } { t with arrivals := a }
  event : ∀ {s t}, R s t → ∀ e, R (s.event e) (t.event e)
  pc : ∀ {s t}, R s t → t.pc = s.pc
  mem : ∀ {s t}, R s t → t.mem = s.mem
  advance : ∀ {s t}, R s t → R s.advance t.advance
  raise : ∀ {s t}, R s t → ∀ r, R (s.raise r) (t.raise r)
  exec : ∀ {i s t s' t'}, R s t → exec i s = .next s' → exec i t = .next t' → R s' t'

section
variable {R : State → State → Prop} {s t s' t' : State}

theorem StepCongruence.events (hR : StepCongruence R) (h : R s t) (es : List Event) :
    R (s.events es) (t.events es) := by
  induction es generalizing s t with
  | nil => exact h
  | cons e es ih => exact ih (hR.event h e)

theorem StepCongruence.arrive (hR : StepCongruence R) (h : R s t) : R s.arrive t.arrive := by
  cases ha : s.arrivals with
  | nil => rwa [State.arrive_of_none ha, State.arrive_of_none ((hR.arrivals h).trans ha)]
  | cons es rest =>
    rw [State.arrive_of_cons ha, State.arrive_of_cons ((hR.arrivals h).trans ha)]
    exact hR.events (hR.setArrivals h rest) es

theorem StepCongruence.step (hR : StepCongruence R) (h : R s t) (hs : step s = .next s') (ht : step t = .next t') :
    R s' t' := by
  have hfetch : t.fetch = s.fetch := State.fetch_congr (hR.pc h) (hR.mem h)
  have harrive := hR.arrive h
  cases hf : s.fetch with
  | none =>
    rw [step_of_fetch_none hf] at hs
    rw [step_of_fetch_none (hfetch.trans hf), hR.pc h] at ht
    obtain rfl := Host.Outcome.next.inj hs
    obtain rfl := Host.Outcome.next.inj ht
    exact hR.raise harrive _
  | some op =>
    cases hd : decode op with
    | error =>
      rw [step_of_decode_error hf hd] at hs
      rw [step_of_decode_error (hfetch.trans hf) hd] at ht
      obtain rfl := Host.Outcome.next.inj hs
      obtain rfl := Host.Outcome.next.inj ht
      exact hR.raise (hR.advance harrive) _
    | ok i =>
      rw [step_of_decode hf hd] at hs
      rw [step_of_decode (hfetch.trans hf) hd] at ht
      exact hR.exec (hR.advance harrive) hs ht

end

/-! ## The sound timer -/

/-- The instructions that name the stack do not name the sound timer. -/
theorem blind_exec_st {i : Instr} (g : Byte → Byte) (s : State) (hst : ∀ x, i ≠ .ldSTVx x) :
    Blind id g (exec i s) (exec i (s.mapHidden id g)) := by
  by_cases hret : i = .ret
  · subst hret
    by_cases hsp : 0 < s.sp.val
    · exact ⟨_, exec_ret_of_held hsp, exec_ret_of_held (s := s.mapHidden id g) hsp⟩
    · exact ⟨_, exec_ret_of_empty hsp, exec_ret_of_empty (s := s.mapHidden id g) hsp⟩
  by_cases hcall : ∃ nnn, i = .call nnn
  · obtain ⟨nnn, rfl⟩ := hcall
    by_cases hsp : s.sp.val < 16
    · exact ⟨_, exec_call_of_room nnn hsp, exec_call_of_room nnn (s := s.mapHidden id g) hsp⟩
    · exact ⟨_, exec_call_of_full nnn hsp, exec_call_of_full nnn (s := s.mapHidden id g) hsp⟩
  exact blind_exec id g s hret (not_exists.1 hcall) hst

theorem exec_sameButST {i : Instr} {s t s' t' : State} (h : s.SameButST t) (hs : exec i s = .next s')
    (ht : exec i t = .next t') : s'.SameButST t' := by
  rw [h] at ht
  by_cases hst : ∃ x, i = .ldSTVx x
  · obtain ⟨x, rfl⟩ := hst
    obtain rfl := Host.Outcome.next.inj hs
    obtain rfl := Host.Outcome.next.inj ht
    rfl
  · obtain ⟨u, hu, hu'⟩ := blind_exec_st (fun _ => t.st) s (not_exists.1 hst)
    obtain rfl := exec_next_inj hs hu
    obtain rfl := exec_next_inj ht hu'
    rfl

/-! ## Dead stack slots -/

theorem not_writes_stack {i : Instr} (hret : i ≠ .ret) (hcall : ∀ nnn, i ≠ .call nnn) (s : State) :
    ¬ Writes i s .sp ∧ ∀ j, ¬ Writes i s (.slot j) := by
  cases i with
  | ret => exact absurd rfl hret
  | call nnn => exact absurd rfl (hcall nnn)
  | ldVxK => exact ⟨fun h => by simpa using mem_of_writes_ldVxK h, fun _ h => by simpa using mem_of_writes_ldVxK h⟩
  | _ => simp [Writes, ifRange]

/-- An instruction that does not name the stack. -/
theorem blind_exec_stack {i : Instr} (f : Vector Word 16 → Vector Word 16) (s : State) (hret : i ≠ .ret)
    (hcall : ∀ nnn, i ≠ .call nnn) : Blind f id (exec i s) (exec i (s.mapHidden f id)) := by
  by_cases hst : ∃ x, i = .ldSTVx x
  · obtain ⟨x, rfl⟩ := hst
    exact ⟨_, rfl, rfl⟩
  · exact blind_exec f id s hret hcall (not_exists.1 hst)

section
variable {s t s' t' : State}

theorem exec_ret_sameButDeadSlots (h : s.SameButDeadSlots t) (hs : exec .ret s = .next s')
    (ht : exec .ret t = .next t') : s'.SameButDeadSlots t' := by
  obtain ⟨heq, hslots⟩ := h
  rw [heq] at ht
  by_cases hsp : 0 < s.sp.val
  · obtain rfl := exec_next_inj hs (exec_ret_of_held hsp)
    obtain rfl := exec_next_inj ht (exec_ret_of_held (s := { s with stack := t.stack }) hsp)
    have hpop : t.stack[s.sp.val - 1] = s.stack[s.sp.val - 1] :=
      hslots ⟨s.sp.val - 1, by omega⟩ (by simp only; omega)
    refine ⟨by simp only [State.returned, hpop], fun j hj => hslots j ?_⟩
    simp only [State.returned] at hj
    omega
  · obtain rfl := exec_next_inj hs (exec_ret_of_empty hsp)
    obtain rfl := exec_next_inj ht (exec_ret_of_empty (s := { s with stack := t.stack }) hsp)
    exact ⟨rfl, hslots⟩

theorem exec_call_sameButDeadSlots {nnn : Addr12} (h : s.SameButDeadSlots t) (hs : exec (.call nnn) s = .next s')
    (ht : exec (.call nnn) t = .next t') : s'.SameButDeadSlots t' := by
  obtain ⟨heq, hslots⟩ := h
  rw [heq] at ht
  by_cases hsp : s.sp.val < 16
  · obtain rfl := exec_next_inj hs (exec_call_of_room nnn hsp)
    obtain rfl := exec_next_inj ht (exec_call_of_room nnn (s := { s with stack := t.stack }) hsp)
    refine ⟨rfl, fun j hj => ?_⟩
    rw [State.called_stack, State.called_stack]
    by_cases htop : s.sp.val = j.val
    · rw [if_pos htop, if_pos htop]
    · rw [if_neg htop, if_neg htop]
      exact hslots j (by simp only [State.called] at hj; omega)
  · obtain rfl := exec_next_inj hs (exec_call_of_full nnn hsp)
    obtain rfl := exec_next_inj ht (exec_call_of_full nnn (s := { s with stack := t.stack }) hsp)
    exact ⟨rfl, hslots⟩

theorem exec_sameButDeadSlots {i : Instr} (h : s.SameButDeadSlots t) (hs : exec i s = .next s')
    (ht : exec i t = .next t') : s'.SameButDeadSlots t' := by
  by_cases hret : i = .ret
  · subst hret
    exact exec_ret_sameButDeadSlots h hs ht
  by_cases hcall : ∃ nnn, i = .call nnn
  · obtain ⟨nnn, rfl⟩ := hcall
    exact exec_call_sameButDeadSlots h hs ht
  obtain ⟨heq, hslots⟩ := h
  rw [heq] at ht
  obtain ⟨u, hu, hu'⟩ := blind_exec_stack (fun _ => t.stack) s hret (not_exists.1 hcall)
  obtain rfl := exec_next_inj hs hu
  obtain rfl := exec_next_inj ht hu'
  obtain ⟨hsp, hslot⟩ := not_writes_stack hret (not_exists.1 hcall) s
  have hsameSp : s'.sp = s.sp := exec_frame hs .sp hsp
  refine ⟨rfl, fun j hj => ?_⟩
  have hsameSlot : s'.stack[j.val] = s.stack[j.val] := exec_frame hs (.slot j) (hslot j)
  exact (hslots j (hsameSp ▸ hj)).trans hsameSlot.symm

end

/-! ## Over a step -/

theorem stepCongruence_sameButST : StepCongruence State.SameButST where
  arrivals h := by rw [h]
  setArrivals h a := by rw [h]; rfl
  event h e := by rw [h]; cases e <;> rfl
  pc h := by rw [h]
  mem h := by rw [h]
  advance h := by rw [h]; rfl
  raise h r := by rw [h]; rfl
  exec := exec_sameButST

/-- Settles O53: only Fx18 names ST, and it overwrites it; the timer's own countdown stays in ST. -/
theorem soundTimerIsReadByNoInstruction : Obligations.SoundTimerIsReadByNoInstruction := fun _ _ _ _ =>
  stepCongruence_sameButST.step

theorem stepCongruence_sameButDeadSlots : StepCongruence State.SameButDeadSlots where
  arrivals h := by rw [h.1]
  setArrivals h a := ⟨by rw [h.1], h.2⟩
  event h e := by cases e <;> exact ⟨by rw [h.1]; rfl, h.2⟩
  pc h := by rw [h.1]
  mem h := by rw [h.1]
  advance h := ⟨by rw [h.1]; rfl, h.2⟩
  raise h r := ⟨by rw [h.1]; rfl, h.2⟩
  exec := exec_sameButDeadSlots

/-- Settles O52: only 2nnn and 00EE name the stack, and they read slots below SP alone. -/
theorem deadStackSlotsAreUnobservable : Obligations.DeadStackSlotsAreUnobservable := fun _ _ _ _ =>
  stepCongruence_sameButDeadSlots.step

end Sys2Proof.Machine
end

section
/-! PROOFS. VF (10_state.md R21): an instruction whose x and y are not 15 reads the same from two states that differ
in VF alone, and does the same to both. -/

namespace Sys2Proof.Machine

/-! ## What reads alike -/

section
variable {s t : State}

theorem State.regBlock_congr {x : Reg} (h : ∀ k ≤ x, t.reg k = s.reg k) : t.regBlock x = s.regBlock x := by
  refine List.ext_getElem (by simp) fun k hk _ => ?_
  rw [State.length_regBlock] at hk
  have hkx : (⟨k, by omega⟩ : Reg) ≤ x := Fin.le_def.2 (Nat.le_of_lt_succ hk)
  simpa [State.regBlock, State.reg] using h ⟨k, by omega⟩ hkx

/-! ## What is done alike -/

theorem State.SameButVF.setReg (h : s.SameButVF t) (r : Reg) (b : Byte) : (s.setReg r b).SameButVF (t.setReg r b) := by
  refine ⟨by rw [h.1]; rfl, fun q hq => ?_⟩
  rw [State.reg_setReg, State.reg_setReg, h.2 q hq]

theorem State.SameButVF.jump (h : s.SameButVF t) (w : Word) : (s.jump w).SameButVF (t.jump w) :=
  ⟨by rw [h.1]; rfl, h.2⟩

theorem State.SameButVF.raise (h : s.SameButVF t) (r : Report) : (s.raise r).SameButVF (t.raise r) :=
  ⟨by rw [h.1]; rfl, h.2⟩

theorem State.SameButVF.skipIf (h : s.SameButVF t) (c : Bool) : (s.skipIf c).SameButVF (t.skipIf c) := by
  cases c with
  | false => exact h
  | true =>
    have hpc : t.pc = s.pc := by rw [h.1]
    simpa [State.skipIf, hpc] using h.jump (s.pc + 2)

theorem State.SameButVF.loadRegs (h : s.SameButVF t) (k : Nat) (bs : List Byte) :
    (s.loadRegs k bs).SameButVF (t.loadRegs k bs) := by
  induction bs generalizing s t k with
  | nil => exact h
  | cons b bs ih => exact ih (h.setReg _ b) (k + 1)

theorem State.SameButVF.subInto (h : s.SameButVF t) (flag : Byte) (x : Reg) {a b : Reg} (ha : a ≠ VF) (hb : b ≠ VF) :
    (s.subInto flag x a b).SameButVF (t.subInto flag x a b) := by
  have hflag := h.setReg VF flag
  rw [State.subInto, State.subInto, hflag.2 a ha, hflag.2 b hb]
  exact hflag.setReg x _

end

/-! ## Every instruction -/

/-- Other registers in the same state. -/
def State.setV (s : State) (w : Vector Byte 16) : State := { s with v := w }

/-- Both answers are next states, and they differ in VF alone. -/
def AlikeButVF (o o' : Outcome) : Prop := ∃ s' t', o = .next s' ∧ o' = .next t' ∧ s'.SameButVF t'

section
variable {s : State} {w : Vector Byte 16}

theorem alikeButVF_storeBlock (h : s.SameButVF (s.setV w)) (bs : List Byte) :
    AlikeButVF (s.storeBlock bs) ((s.setV w).storeBlock bs) := by
  unfold State.storeBlock
  cases hm : s.mem.writeBytes s.i.toNat bs with
  | none => exact ⟨_, (s.setV w).raise (.memoryBounds s.i), rfl, by simp only [State.setV, hm], h.raise _⟩
  | some m => exact ⟨_, { s.setV w with mem := m }, rfl, by simp only [State.setV, hm], rfl, h.2⟩

theorem alikeButVF_withBlock (h : s.SameButVF (s.setV w)) {n : Nat} {use use' : List Byte → State}
    (huse : ∀ bs, (use bs).SameButVF (use' bs)) : AlikeButVF (s.withBlock n use) ((s.setV w).withBlock n use') := by
  unfold State.withBlock
  cases hm : s.mem.readBytes s.i.toNat n with
  | none => exact ⟨_, (s.setV w).raise (.memoryBounds s.i), rfl, by simp only [State.setV, hm], h.raise _⟩
  | some bs => exact ⟨_, use' bs, rfl, by simp only [State.setV, hm], huse bs⟩

theorem alikeButVF_ret (h : s.SameButVF (s.setV w)) : AlikeButVF (exec .ret s) (exec .ret (s.setV w)) := by
  by_cases hsp : 0 < s.sp.val
  · exact ⟨_, _, exec_ret_of_held hsp, exec_ret_of_held (s := s.setV w) hsp, rfl, h.2⟩
  · exact ⟨_, _, exec_ret_of_empty hsp, exec_ret_of_empty (s := s.setV w) hsp, h.raise _⟩

theorem alikeButVF_call (h : s.SameButVF (s.setV w)) (nnn : Addr12) :
    AlikeButVF (exec (.call nnn) s) (exec (.call nnn) (s.setV w)) := by
  by_cases hsp : s.sp.val < 16
  · exact ⟨_, _, exec_call_of_room nnn hsp, exec_call_of_room nnn (s := s.setV w) hsp, rfl, h.2⟩
  · exact ⟨_, _, exec_call_of_full nnn hsp, exec_call_of_full nnn (s := s.setV w) hsp, h.raise _⟩

theorem alikeButVF_ldVxK (h : s.SameButVF (s.setV w)) (x : Reg) :
    AlikeButVF (exec (.ldVxK x) s) (exec (.ldVxK x) (s.setV w)) := by
  cases hw : s.wait with
  | idle => exact ⟨_, _, exec_ldVxK_of_idle x hw, exec_ldVxK_of_idle x (s := s.setV w) hw, rfl, h.2⟩
  | awaitingKey =>
    cases hr : s.lastRel with
    | none => exact ⟨_, _, exec_ldVxK_of_none x hw hr, exec_ldVxK_of_none x (s := s.setV w) hw hr, h.jump _⟩
    | some k =>
      have hidle : State.SameButVF { s with wait := .idle, lastRel := none }
          { s.setV w with wait := .idle, lastRel := none } := ⟨rfl, h.2⟩
      exact ⟨_, _, exec_ldVxK_of_some x hw hr, exec_ldVxK_of_some x (s := s.setV w) hw hr, hidle.setReg x _⟩

theorem exec_alikeButVF (i : Instr) (h : s.SameButVF (s.setV w)) (hx : ∀ x, xField i = some x → x ≠ VF)
    (hy : ∀ y, yField i = some y → y ≠ VF) : AlikeButVF (exec i s) (exec i (s.setV w)) := by
  cases i with
  | cls | ldI => exact ⟨_, _, rfl, rfl, rfl, h.2⟩
  | sys => exact ⟨_, _, rfl, rfl, h⟩
  | jp => exact ⟨_, _, rfl, rfl, h.jump _⟩
  | jpV0 nnn =>
    have hV0 : (s.setV w).reg 0 = s.reg 0 := h.2 0 (by decide)
    refine ⟨_, _, rfl, rfl, ?_⟩
    rw [hV0]
    exact h.jump _
  | ret => exact alikeButVF_ret h
  | call nnn => exact alikeButVF_call h nnn
  | ldVxK x => exact alikeButVF_ldVxK h x
  | ldImm | ldVxDT => exact ⟨_, _, rfl, rfl, h.setReg _ _⟩
  | rnd x nn =>
    have hdraws : State.SameButVF { s with draws := s.draws + 1 } { s.setV w with draws := s.draws + 1 } := ⟨rfl, h.2⟩
    exact ⟨_, _, rfl, rfl, hdraws.setReg x _⟩
  | ldVxI x => exact alikeButVF_withBlock h fun bs => h.loadRegs 0 bs
  | ldIVx x =>
    have hblock : (s.setV w).regBlock x = s.regBlock x := State.regBlock_congr fun k hk =>
      h.2 k (ne_of_lt (lt_of_le_of_lt hk (lt_of_le_of_ne (Fin.le_last x) (hx x rfl))))
    change AlikeButVF (s.storeBlock (s.regBlock x)) ((s.setV w).storeBlock ((s.setV w).regBlock x))
    rw [hblock]
    exact alikeButVF_storeBlock h _
  | ldB x =>
    change AlikeButVF (s.storeBlock (bcdDigits (s.reg x))) ((s.setV w).storeBlock (bcdDigits ((s.setV w).reg x)))
    rw [h.2 x (hx x rfl)]
    exact alikeButVF_storeBlock h _
  | drw x y n =>
    have hdrawn (d : Framebuffer × Bool) : (s.drawn d).SameButVF ((s.setV w).drawn d) :=
      State.SameButVF.setReg (s := { s with fb := d.1 }) (t := { s.setV w with fb := d.1 }) ⟨rfl, h.2⟩ VF _
    refine alikeButVF_withBlock h fun sprite => ?_
    rw [h.2 x (hx x rfl), h.2 y (hy y rfl)]
    exact hdrawn _
  | seImm x _ | sneImm x _ | skp x | sknp x =>
    refine ⟨_, _, rfl, rfl, ?_⟩
    rw [h.2 x (hx x rfl)]
    exact h.skipIf _
  | seReg x y | sneReg x y =>
    refine ⟨_, _, rfl, rfl, ?_⟩
    rw [h.2 x (hx x rfl), h.2 y (hy y rfl)]
    exact h.skipIf _
  | addImm x _ =>
    refine ⟨_, _, rfl, rfl, ?_⟩
    rw [h.2 x (hx x rfl)]
    exact h.setReg x _
  | ldReg x y =>
    refine ⟨_, _, rfl, rfl, ?_⟩
    rw [h.2 y (hy y rfl)]
    exact h.setReg x _
  | orReg x y | andReg x y | xorReg x y =>
    refine ⟨_, _, rfl, rfl, ?_⟩
    rw [h.2 x (hx x rfl), h.2 y (hy y rfl)]
    exact h.setReg x _
  | addReg x y =>
    refine ⟨_, _, rfl, rfl, ?_⟩
    rw [h.2 x (hx x rfl), h.2 y (hy y rfl)]
    exact (h.setReg x _).setReg VF _
  | subReg x y =>
    refine ⟨_, _, exec_subReg_eq .., exec_subReg_eq .., ?_⟩
    rw [h.2 x (hx x rfl), h.2 y (hy y rfl)]
    exact h.subInto _ x (hx x rfl) (hy y rfl)
  | subnReg x y =>
    refine ⟨_, _, exec_subnReg_eq .., exec_subnReg_eq .., ?_⟩
    rw [h.2 x (hx x rfl), h.2 y (hy y rfl)]
    exact h.subInto _ x (hy y rfl) (hx x rfl)
  | shr x y | shl x y =>
    refine ⟨_, _, rfl, rfl, ?_⟩
    rw [h.2 x (hx x rfl), (h.setReg VF _).2 x (hx x rfl)]
    exact (h.setReg VF _).setReg x _
  | ldDTVx x | ldSTVx x | addI x | ldF x =>
    refine ⟨_, _, rfl, rfl, ?_⟩
    rw [h.2 x (hx x rfl)]
    exact ⟨rfl, h.2⟩

end

/-- Settles O33: what the two states read alike, every instruction uses alike. -/
theorem vfIsReadOnlyWhenNamed : Obligations.VFIsReadOnlyWhenNamed := by
  intro i s t s' t' hx hy h hs ht
  have halike : AlikeButVF (exec i s) (exec i (s.setV t.v)) := exec_alikeButVF i (h.1 ▸ h)
    (fun x hi hF => hx (hF ▸ hi)) (fun y hi hF => hy (hF ▸ hi))
  obtain ⟨u, u', hu, hu', hsame⟩ := halike
  obtain rfl := exec_next_inj hs hu
  rw [h.1] at ht
  obtain rfl := exec_next_inj ht hu'
  exact hsame

end Sys2Proof.Machine
end

section
/-! PROOFS. The reset state field by field (10_state.md R40, 70_reset_and_hazards.md R241), and that the
initialisation sequence of R243 leaves it. -/

namespace Sys2Proof.Machine

/-- Settles O17: the fields by evaluation; memory, which lists nothing, by what unlisted memory reads as. -/
theorem resetStateIsTheSpecs : Obligations.ResetStateIsTheSpecs := by
  refine ⟨fun x => ?_, rfl, rfl, rfl, rfl, Framebuffer.pixel_cleared, fun a ha hfont => ?_, rfl, rfl, fun k => ?_, rfl,
    rfl, fun j => ?_⟩
  · exact Vector.getElem_replicate x.isLt
  · have hread : State.reset.mem.get a = 0 := Memory.unlisted_of_not_font (by omega)
    rw [Memory.read_eq, if_pos ha, hread]
  · exact Vector.getElem_replicate k.isLt
  · exact Vector.getElem_replicate j.isLt

/-- The zero memory of R243 step 1 is canonical, since no font byte is zero. -/
theorem Memory.wf_zero : Memory.zero.wf = true := by decide

theorem Memory.unlisted_eq (a : Nat) :
    Memory.unlisted a = if 0x050 ≤ a ∧ a ≤ 0x09F then fontBytes.getD (a - 0x050) 0 else 0 := by
  by_cases h : 0x050 ≤ a ∧ a ≤ 0x09F
  · rw [if_pos h]
    exact if_pos h.1
  · rw [if_neg h]
    exact Memory.unlisted_of_not_font (by omega)

/-- With the font loaded it reads as unlisted memory does, so it lists nothing. -/
theorem Memory.eq_nil_of_zero_writeBytes_font {m : Memory}
    (h : Memory.zero.writeBytes Config.fontBase fontBytes = some m) : m = [] := by
  refine memoriesThatReadAlikeAreEqual m [] (Memory.wf_writeBytes h Memory.wf_zero) rfl fun a => ?_
  rw [Memory.read_eq, Memory.read_eq, Memory.get_zero_writeBytes_font h, Memory.get, Memory.unlisted_eq]

theorem boot_eq_reset_load (rom : List Byte) : boot rom = State.reset.load Config.romBase rom := by
  obtain ⟨m, hfont, hboot⟩ := boot_eq_load_rom rom
  rw [hboot, Memory.eq_nil_of_zero_writeBytes_font hfont]
  rfl

/-- Settles O19: a boot is the load of the ROM into the reset state. -/
theorem bootGivesTheResetState : Obligations.BootGivesTheResetState := by
  refine ⟨boot_eq_reset_load [], fun rom t h => ?_⟩
  rw [boot_eq_reset_load] at h
  obtain ⟨_, m, hm, hload⟩ | ⟨_, hfault⟩ := State.reset.load_cases Config.romBase rom
  · obtain rfl := Host.Outcome.next.inj (h.symm.trans hload)
    exact ⟨rfl, Memory.wf_writeBytes hm State.reset_mem_wf⟩
  · cases h.symm.trans hfault

end Sys2Proof.Machine
end
